-- ==== Sys2Proof/Word.lean ====
section
/-! DEFINITION. The word types of the block: a word is 32 bits and bit 0 is the least significant (spec/00_scope.md R10). -/

namespace Sys2Proof

/-- A 32-bit word: command words, data words, samples, responses and most registers (R8, R10). -/
abbrev Word := BitVec 32

/-- The 24-bit unsigned operand of a command word (R52, R54); `BR` has the same width (R26). -/
abbrev Imm24 := BitVec 24

end Sys2Proof
end

