-- ==== Sys2Proof/Syntax.lean ====
section
/-! DEFINITION. Ports, packets, commands and fault codes (spec/30_encoding.md R51, R53, R56; spec/60_exceptions.md R102). -/

namespace Sys2Proof

/-- The two command ports; each is one of the source's execution contexts (R6, R112). -/
inductive Port where
  | rt
  | ctl
deriving DecidableEq, Repr, Inhabited

/-- A packet as the transport delivers it: a command word and its data words (R51).
The port it arrives on is the queue it stands in. -/
structure Packet where
  word : Word
  data : List Word
deriving DecidableEq, Repr

/-- The ten commands, one constructor per row of spec/opcode_table.json, with their operands (R53, R54, R56).
Each operand has the width the encoding gives it, so no value of this type is ill-formed. -/
inductive Instr where
  /-- SETUP: the sample rate, a binary32 pattern (R80). -/
  | setup (sampleRate : Word)
  /-- ACTIVATE (R82). -/
  | activate
  /-- DEACTIVATE (R86). -/
  | deactivate
  /-- TEARDOWN (R87). -/
  | teardown
  /-- RESET (R68). -/
  | reset
  /-- DRAIN: the most frames to return (R73). -/
  | drain (maxCount : Imm24)
  /-- RDREG: the register view's index (R96). -/
  | rdreg (index : Imm24)
  /-- PEEK: the slot index (R99). -/
  | peek (slot : Imm24)
  /-- BLOCK: the frame count, then the three controls in the order format, record, save (R53, R88). -/
  | block (frames : Imm24) (format record save : Word)
  /-- FRAME: the left and the right input sample (R89). -/
  | frame (left right : Word)
deriving DecidableEq, Repr

/-- The pseudo-instructions of R64; `process` carries the frame count and the input frames. -/
inductive Pseudo where
  | init (sampleRate : Word)
  | shutdown
  | pop
  | process (n : Imm24) (format record save : Word) (frames : List (Word × Word))
deriving DecidableEq, Repr

/-- The contract faults, in the order of their codes 1 to 7 (R102). -/
inductive FaultCode where
  | illegalCmd
  | wrongPort
  | lifecycle
  | noStorage
  | inBlock
  | noBlock
  | badIndex
deriving DecidableEq, Repr

end Sys2Proof
end

