-- ==== Sys2Proof/Config.lean ====
section
/-! DEFINITION. The implementation parameters (spec/00_scope.md R8) and the free values: what the spec leaves open.
A free value has no body: no proof can see what it is. -/

namespace Sys2Proof

/-- The implementation parameters of R8, each fixed for the lifetime of an instance.
Every value of this type is a legal choice: the duration is the positive rational `durNum / durDen`, the depth lies
in 1 to 2^32-1 (log entry 2). -/
structure Params where
  /-- Numerator of `MAX_DURATION_S`, less 1. -/
  durNumLess1 : Nat
  /-- Denominator of `MAX_DURATION_S`, less 1. -/
  durDenLess1 : Nat
  /-- `STORE_DEPTH`, less 1. -/
  depthLess1 : Fin 4294967295
  /-- `RECORD_ACTIVE`, a 32-bit signed integer. -/
  recordActive : Word
deriving DecidableEq, Repr, Inhabited

/-- Numerator of `MAX_DURATION_S` (R8). -/
def Params.durNum (p : Params) : Nat := p.durNumLess1 + 1

/-- Denominator of `MAX_DURATION_S` (R8). -/
def Params.durDen (p : Params) : Nat := p.durDenLess1 + 1

/-- `STORE_DEPTH`: physical slots per channel (R8, R37). -/
def Params.storeDepth (p : Params) : Nat := p.depthLess1.val + 1

/-- The parameters of the instance that State.reset describes: open (R8; log entry 1). -/
opaque Config.params : Params

/-- Which port's packet runs when both ports have one waiting: open (R45 constraint 2).
The argument numbers the choices (log entry 4). -/
opaque Config.arbiter : Nat → Port

/-- What a slot of STORE_L holds after power-on until it is written: unspecified (R35).
The arguments are how many power-on resets there have been and the slot (log entry 7). -/
opaque Config.powerOnL : Nat → Nat → Word

/-- What a slot of STORE_R holds after power-on until it is written: unspecified (R35; log entry 7). -/
opaque Config.powerOnR : Nat → Nat → Word

/-- `x mod 0`, to which the notation gives no value (R10: the modulus is positive).
Reached only in states that R33 rules out (log entry 9). -/
opaque Config.modZero : Int → Word

end Sys2Proof
end

