-- ==== Sys2Proof/WellFormed.lean ====
section
/-! DEFINITION. Which packets are legal on a port, read from the opcode map by mask and match (spec/30_encoding.md R53, R56, R60).
It is written apart from the decoder, which follows the procedure of R59: that the two agree is a statement.
A value of Instr needs no check: its operands have the widths the encoding gives them (log entry 12). -/

namespace Sys2Proof

/-- One row of the opcode map of R56: a command word is the row's when its bits under `mask` are `pattern`. -/
structure MapRow where
  mnemonic  : String
  mask      : Word
  pattern   : Word
  port      : Port
  dataWords : Nat
deriving DecidableEq, Repr

/-- The opcode map (R56), with its masks and bit patterns, ports and data-word counts (R53). -/
def opcodeMap : List MapRow :=
  [ ⟨"SETUP",      0xFFFFFFFF#32, 0x10000000#32, .ctl, 1⟩,
    ⟨"ACTIVATE",   0xFFFFFFFF#32, 0x20000000#32, .ctl, 0⟩,
    ⟨"DEACTIVATE", 0xFFFFFFFF#32, 0x30000000#32, .ctl, 0⟩,
    ⟨"TEARDOWN",   0xFFFFFFFF#32, 0x40000000#32, .ctl, 0⟩,
    ⟨"RESET",      0xFFFFFFFF#32, 0x50000000#32, .ctl, 0⟩,
    ⟨"DRAIN",      0xFF000000#32, 0x60000000#32, .ctl, 0⟩,
    ⟨"RDREG",      0xFF000000#32, 0x70000000#32, .ctl, 0⟩,
    ⟨"PEEK",       0xFF000000#32, 0x80000000#32, .ctl, 0⟩,
    ⟨"BLOCK",      0xFF000000#32, 0x90000000#32, .rt,  3⟩,
    ⟨"FRAME",      0xFFFFFFFF#32, 0xA0000000#32, .rt,  2⟩ ]

/-- The command word has the row's bits under the row's mask (R56). -/
def MapRow.matchesWord (r : MapRow) (w : Word) : Bool := w &&& r.mask == r.pattern

/-- The packet's command word is a listed one and its data-word count is the row's: no ILLEGAL_CMD (R60). -/
def Packet.wellFormed (p : Packet) : Bool :=
  opcodeMap.any fun r => r.matchesWord p.word && p.data.length == r.dataWords

/-- The packet is well-formed and its command belongs to the port: neither ILLEGAL_CMD nor WRONG_PORT (R60, R102). -/
def Packet.legalOn (p : Packet) (port : Port) : Bool :=
  opcodeMap.any fun r => r.matchesWord p.word && p.data.length == r.dataWords && r.port == port

/-- PROCESS n names exactly n frames; the other pseudo-instructions need no check (R64). -/
def Pseudo.wellFormed : Pseudo → Bool
  | .process n _ _ _ frames => frames.length == n.toNat
  | .init _ | .shutdown | .pop => true

end Sys2Proof
end

