-- ==== Sys2Proof/Decode.lean ====
section
/-! DEFINITION. The decoder, total on every packet and port (spec/30_encoding.md R52 to R56, R59, R60), and the encoder (R52, R53, R56). -/

namespace Sys2Proof

/-- The ten opcodes of the map (R56). -/
inductive Opcode where
  | setup | activate | deactivate | teardown | reset | drain | rdreg | peek | block | frame
deriving DecidableEq, Repr

/-- Field OP, bits 31:28 of the command word (R52). -/
def opField (w : Word) : BitVec 4 := w.extractLsb' 28 4

/-- Field RSV, bits 27:24 of the command word (R52). -/
def rsvField (w : Word) : BitVec 4 := w.extractLsb' 24 4

/-- Field IMM24, bits 23:0 of the command word (R52, R54). -/
def immField (w : Word) : Imm24 := w.extractLsb' 0 24

/-- The opcode an OP value stands for; values not listed are reserved (R56, R60). -/
def Opcode.ofField (op : BitVec 4) : Option Opcode :=
  match op.toNat with
  | 0x1 => some .setup
  | 0x2 => some .activate
  | 0x3 => some .deactivate
  | 0x4 => some .teardown
  | 0x5 => some .reset
  | 0x6 => some .drain
  | 0x7 => some .rdreg
  | 0x8 => some .peek
  | 0x9 => some .block
  | 0xA => some .frame
  | _ => none

/-- The OP value of an opcode (R56). -/
def Opcode.field : Opcode → BitVec 4
  | .setup      => 0x1#4
  | .activate   => 0x2#4
  | .deactivate => 0x3#4
  | .teardown   => 0x4#4
  | .reset      => 0x5#4
  | .drain      => 0x6#4
  | .rdreg      => 0x7#4
  | .peek       => 0x8#4
  | .block      => 0x9#4
  | .frame      => 0xA#4

/-- PORT of R56: the port a command belongs to. -/
def Opcode.port : Opcode → Port
  | .setup | .activate | .deactivate | .teardown | .reset | .drain | .rdreg | .peek => .ctl
  | .block | .frame => .rt

/-- DATA_WORDS of R53: how many data words follow the command word. -/
def Opcode.dataWords : Opcode → Nat
  | .setup => 1
  | .block => 3
  | .frame => 2
  | .activate | .deactivate | .teardown | .reset | .drain | .rdreg | .peek => 0

/-- IMM24 is an operand of DRAIN, RDREG, PEEK and BLOCK, and must be 0 for every other opcode (R52). -/
def Opcode.usesImm : Opcode → Bool
  | .drain | .rdreg | .peek | .block => true
  | .setup | .activate | .deactivate | .teardown | .reset | .frame => false

/-- Why a packet decodes to no command: the five checks of R59, in their order. -/
inductive Reject where
  /-- OP is none of 0x1 to 0xA. -/
  | reservedOp
  /-- RSV is not 0. -/
  | reservedBits
  /-- IMM24 is not 0 on a command that does not use it. -/
  | unusedImm
  /-- The data-word count is not the opcode's. -/
  | dataCount
  /-- The command belongs to the other port. -/
  | wrongPort
deriving DecidableEq, Repr

/-- The command of an opcode with its operands, data words taken in the order of R53. -/
def assemble (op : Opcode) (imm : Imm24) (d : List Word) : Instr :=
  match op with
  | .setup      => .setup (d.getD 0 0#32)
  | .activate   => .activate
  | .deactivate => .deactivate
  | .teardown   => .teardown
  | .reset      => .reset
  | .drain      => .drain imm
  | .rdreg      => .rdreg imm
  | .peek       => .peek imm
  | .block      => .block imm (d.getD 0 0#32) (d.getD 1 0#32) (d.getD 2 0#32)
  | .frame      => .frame (d.getD 0 0#32) (d.getD 1 0#32)

/-- The decoder procedure of R59: the checks in its order, then the opcode's command. -/
def decode (port : Port) (p : Packet) : Except Reject Instr :=
  match Opcode.ofField (opField p.word) with
  | none => .error .reservedOp
  | some op =>
    if rsvField p.word ≠ 0#4 then .error .reservedBits
    else if op.usesImm = false ∧ immField p.word ≠ 0#24 then .error .unusedImm
    else if p.data.length ≠ op.dataWords then .error .dataCount
    else if op.port ≠ port then .error .wrongPort
    else .ok (assemble op (immField p.word) p.data)

/-- The opcode of a command (R56). -/
def Instr.opcode : Instr → Opcode
  | .setup _       => .setup
  | .activate      => .activate
  | .deactivate    => .deactivate
  | .teardown      => .teardown
  | .reset         => .reset
  | .drain _       => .drain
  | .rdreg _       => .rdreg
  | .peek _        => .peek
  | .block _ _ _ _ => .block
  | .frame _ _     => .frame

/-- The port a command is issued on (R56, R112). -/
def Instr.port (i : Instr) : Port := i.opcode.port

/-- IMM24 of a command: its operand where it has one, 0 elsewhere (R52). -/
def Instr.imm : Instr → Imm24
  | .drain m       => m
  | .rdreg idx     => idx
  | .peek k        => k
  | .block n _ _ _ => n
  | .setup _ | .activate | .deactivate | .teardown | .reset | .frame _ _ => 0#24

/-- The data words of a command, in the order of R53. -/
def Instr.dataWords : Instr → List Word
  | .setup d0         => [d0]
  | .block _ d0 d1 d2 => [d0, d1, d2]
  | .frame d0 d1      => [d0, d1]
  | .activate | .deactivate | .teardown | .reset | .drain _ | .rdreg _ | .peek _ => []

/-- A command word from its three fields (R52). -/
def commandWord (op rsv : BitVec 4) (imm : Imm24) : Word := op ++ rsv ++ imm

/-- The packet of a command (R52, R53, R56). -/
def encode (i : Instr) : Packet :=
  { word := commandWord i.opcode.field 0#4 i.imm, data := i.dataWords }

/-- The packet whose bits are `w`, numbered as spec/opcode_table.json numbers them: the command word is bits 31:0,
data word k is bits 32k+63 : 32k+32; bits at and above `nbits` are 0.
It has the data words its opcode calls for (R51: the transport knows a packet's length), none where the opcode is
reserved (log entry 13). -/
def tablePacket (nbits w : Nat) : Packet :=
  let bits := w % 2 ^ nbits
  let word := BitVec.ofNat 32 bits
  let count := match Opcode.ofField (opField word) with
    | some op => op.dataWords
    | none => 0
  { word := word, data := (List.range count).map fun k => BitVec.ofNat 32 (bits >>> (32 * (k + 1))) }

/-- The port the transport issues that packet on: its command's own; CTL where the opcode is reserved (log entry 13). -/
def tablePort (nbits w : Nat) : Port :=
  match Opcode.ofField (opField (tablePacket nbits w).word) with
  | some op => op.port
  | none => .ctl

/-- The command the decoder reads from the bits `w` of an instruction of spec/opcode_table.json. -/
def decodeTableWord (nbits w : Nat) : Option Instr :=
  match decode (tablePort nbits w) (tablePacket nbits w) with
  | .ok i => some i
  | .error _ => none

/-- The commands a pseudo-instruction stands for, in order; each is a packet of its own (R64, R94). -/
def Pseudo.expand : Pseudo → List Instr
  | .init sr                   => [.setup sr, .activate]
  | .shutdown                  => [.deactivate, .teardown]
  | .pop                       => [.drain 1#24]
  | .process n fmt rec sav fs  => .block n fmt rec sav :: fs.map fun f => .frame f.1 f.2

end Sys2Proof
end

