-- ==== Sys2Proof/Machine/State.lean ====
section
/-! DEFINITION. The state of the block (spec/10_state.md R15 to R35), its responses, its stops, and the state after power-on reset. -/

namespace Sys2Proof.Machine

/-- The lifecycle states held in LC (R17). -/
inductive Lifecycle where
  | uninit
  | configured
  | active
  | destroyed
deriving DecidableEq, Repr

/-- A response: its status word and its data words (R57). -/
structure Response where
  status : Word
  data   : List Word
deriving DecidableEq, Repr

/-- One channel of the sample store: the slots that have been written, with their words (R32, R36).
The store is addressed by slot number and a slot holds one whole word per channel; it has no bytes (log entry 11). -/
abbrev Memory := List (Nat × Word)

/-- The canonical form: slot numbers strictly rise.
A slot that is not listed holds its unspecified power-on word, which no listed word can be compared with (log entry 7). -/
abbrev Memory.wf (m : Memory) : Prop := m.Pairwise fun a b => a.1 < b.1

/-- The state. The first sixteen fields are the registers and arrays of R15 and nothing else of the block is state;
the rest are the parameters, inputs and outputs of R34, which the step reads and writes here (INVENTORY.md, State). -/
structure State where
  /-- LC, lifecycle state (R17). -/
  lc : Lifecycle
  /-- SR, sample-rate pattern (R18). -/
  sr : Word
  /-- ALLOC, the sample store is allocated (R19). -/
  alloc : Bool
  /-- CAP, capacity in frames (R20). -/
  cap : Word
  /-- WCUR, write cursor (R21). -/
  wcur : Word
  /-- RCUR, read cursor (R22). -/
  rcur : Word
  /-- FULL, the unread data occupies the whole ring (R24). -/
  full : Bool
  /-- CLIP, sticky overrun indicator (R25). -/
  clip : Bool
  /-- BR, frames remaining in the current block (R26). -/
  br : BitVec 24
  /-- CTL_REC, latched record control (R28). -/
  ctlRec : Word
  /-- CTL_FMT, latched format control (R29). -/
  ctlFmt : Word
  /-- CTL_SAVE, latched save control (R30). -/
  ctlSave : Word
  /-- FAULTED, a contract fault has been recorded (R31). -/
  faulted : Bool
  /-- FCODE, code of the first recorded contract fault (R31). -/
  fcode : BitVec 4
  /-- STORE_L, the left-channel sample store (R32). -/
  storeL : Memory
  /-- STORE_R, the right-channel sample store (R32). -/
  storeR : Memory
  /-- The implementation parameters (R8); no step changes them (log entry 1). -/
  params : Params
  /-- Packets waiting on the RT port, the next to execute first (R45; log entry 3). -/
  rtIn : List Packet
  /-- Packets waiting on the CTL port, the next to execute first (R45; log entry 3). -/
  ctlIn : List Packet
  /-- Responses given on the RT port, oldest first (R57, R133; log entry 5). -/
  rtOut : List Response
  /-- Responses given on the CTL port, oldest first (R57, R133; log entry 5). -/
  ctlOut : List Response
  /-- How many packets have executed: the argument of the free port choice (log entry 4). -/
  arbCount : Nat
  /-- The host asks for a power-on reset (R119; log entry 6). -/
  powerOnReq : Bool
  /-- How many power-on resets the host has made: an argument of the free power-on store contents (log entry 7). -/
  epoch : Nat
deriving DecidableEq, Repr

/-- Stops of the model. The spec has none: a contract fault of R102 is recorded and the block goes on, so it is a next state.
Both are reached only in states that R33 rules out, and both are safe (log entry 10). -/
inductive Fault where
  /-- Raised by a slot access with ALLOC = 0 or at or above CAP, which R38 and R39 say is never made. Safe. -/
  | outsideRing (slot : Nat)
  /-- Raised by a slot access at or above STORE_DEPTH, where no slot exists (R32, R37). Safe. -/
  | noSuchSlot (slot : Nat)
deriving DecidableEq, Repr

/-- Refusals of the model. -/
inductive Refusal where
  /-- Raised by an arm of exec whose command has no meaning yet; no arm raises it now. Safe. -/
  | notModelled (mnemonic : String)
deriving DecidableEq, Repr

/-- The state right after the first power-on reset (R35, R119): every register at its value in R35, store contents unspecified,
no packet pending, parameters open. -/
def State.reset : State :=
  { lc := .uninit, sr := 0x00000000#32, alloc := false, cap := 0#32, wcur := 0#32, rcur := 0#32,
    full := false, clip := false, br := 0#24, ctlRec := 0#32, ctlFmt := 0#32, ctlSave := 0#32,
    faulted := false, fcode := 0#4, storeL := [], storeR := [],
    params := Config.params, rtIn := [], ctlIn := [], rtOut := [], ctlOut := [],
    arbCount := 0, powerOnReq := false, epoch := 0 }

end Sys2Proof.Machine
end

