-- ==== Sys2Proof/Machine/Ops.lean ====
section
/-! DEFINITION. The operations every command is written over: slot access (spec/20_memory.md R38, R39), cursor arithmetic (R27, R37),
responses (spec/30_encoding.md R57), contract faults (spec/60_exceptions.md R103, R104), the packet queues (R45) and power-on reset (R119). -/

namespace Sys2Proof.Machine

/-- The word listed for a slot, if the slot has been written. -/
def Memory.find : Memory → Nat → Option Word
  | [], _ => none
  | (a, w) :: rest, i => if i = a then some w else Memory.find rest i

/-- Write one slot, keeping the slot numbers rising. -/
def Memory.put : Memory → Nat → Word → Memory
  | [], i, v => [(i, v)]
  | (a, w) :: rest, i, v =>
    if i < a then (i, v) :: (a, w) :: rest
    else if i = a then (i, v) :: rest
    else (a, w) :: Memory.put rest i v

/-- Zero-fill slots 0 .. c-1; slots at and above c keep what they hold (R67). -/
def Memory.zeroBelow (c : Nat) (m : Memory) : Memory :=
  ((List.range c).map fun i => (i, 0x00000000#32)) ++ m.filter fun e => decide (c ≤ e.1)

/-- What slot `i` of STORE_L holds: the word last written, else its unspecified power-on word (R35). -/
def State.slotL (s : State) (i : Nat) : Word := (s.storeL.find i).getD (Config.powerOnL s.epoch i)

/-- What slot `i` of STORE_R holds: the word last written, else its unspecified power-on word (R35). -/
def State.slotR (s : State) (i : Nat) : Word := (s.storeR.find i).getD (Config.powerOnR s.epoch i)

/-- The condition R38 and R39 put on every slot access (ALLOC = 1 and i < CAP), and that the slot exists (R32).
The spec's commands never break it; the model stops where it is broken (log entry 10). -/
def slotCheck (s : State) (i : Nat) : Except Fault Unit :=
  if s.alloc = false ∨ s.cap.toNat ≤ i then .error (.outsideRing i)
  else if s.params.storeDepth ≤ i then .error (.noSuchSlot i)
  else .ok ()

/-- MemRead(i): the pair (STORE_L[i], STORE_R[i]) (R38). -/
def memRead (s : State) (i : Nat) : Except Fault (Word × Word) :=
  match slotCheck s i with
  | .error e => .error e
  | .ok () => .ok (s.slotL i, s.slotR i)

/-- MemWrite(i, (l, r)): both channels of one slot together (R39). -/
def memWrite (i : Nat) (l r : Word) (s : State) : Except Fault State :=
  match slotCheck s i with
  | .error e => .error e
  | .ok () => .ok { s with storeL := s.storeL.put i l, storeR := s.storeR.put i r }

/-- `x mod CAP` on integers, result in [0, CAP) (R10, R27, R37); for CAP = 0 the spec gives no value (log entry 9). -/
def ringMod (cap : Word) (x : Int) : Word :=
  if cap = 0#32 then Config.modZero x else BitVec.ofInt 32 (x % cap.toNat)

/-- COUNT, the unread count (R27). -/
def count (s : State) : Word :=
  if s.alloc = false then 0#32
  else if s.full then s.cap
  else ringMod s.cap ((s.wcur.toNat : Int) - (s.rcur.toNat : Int))

/-- Set both cursors to 0 and clear FULL and CLIP: DoReset (R68). -/
def doReset (s : State) : State := { s with wcur := 0#32, rcur := 0#32, full := false, clip := false }

/-- CONSTRUCT(c): allocate and zero-fill the store for capacity c (R67). -/
def construct (c : Nat) (s : State) : State :=
  { s with cap := BitVec.ofNat 32 c, alloc := true, storeL := s.storeL.zeroBelow c, storeR := s.storeR.zeroBelow c }

/-- The code of a contract fault (R102). -/
def faultNum : FaultCode → BitVec 4
  | .illegalCmd => 1#4
  | .wrongPort  => 2#4
  | .lifecycle  => 3#4
  | .noStorage  => 4#4
  | .inBlock    => 5#4
  | .noBlock    => 6#4
  | .badIndex   => 7#4

/-- The contract fault of a packet the decoder rejects (R59, R60). -/
def rejectCode : Reject → FaultCode
  | .reservedOp | .reservedBits | .unusedImm | .dataCount => .illegalCmd
  | .wrongPort => .wrongPort

/-- A status word: RCODE in bits 7:4, STATUS in bits 1:0, every other bit 0 (R57). -/
def statusWord (status : BitVec 2) (rcode : BitVec 4) : Word := 0#24 ++ rcode ++ 0#2 ++ status

/-- Status word of OK (R57). -/
def okStatus : Word := statusWord 0#2 0#4

/-- Status word of ERR_ALLOC (R57, R58). -/
def errAllocStatus : Word := statusWord 1#2 0#4

/-- Status word of FAULT with a fault code (R57). -/
def faultStatus (code : FaultCode) : Word := statusWord 2#2 (faultNum code)

/-- Append one response to those given on a port (R57). -/
def respond (port : Port) (status : Word) (data : List Word) (s : State) : State :=
  { s with
    rtOut := match port with
      | .rt => s.rtOut ++ [⟨status, data⟩]
      | .ctl => s.rtOut
    ctlOut := match port with
      | .rt => s.ctlOut
      | .ctl => s.ctlOut ++ [⟨status, data⟩] }

/-- respond(OK, data) on a port (R57). -/
def respondOk (port : Port) (data : List Word) (s : State) : State := respond port okStatus data s

/-- raise Fault(code): record the first fault, answer FAULT with no data, change nothing else (R104, R105).
There is no return operation beside it: no handler is entered, and the block goes on with the next packet (R106). -/
def raiseFault (port : Port) (code : FaultCode) (s : State) : State :=
  respond port (faultStatus code) []
    { s with faulted := true, fcode := if s.faulted then s.fcode else faultNum code }

/-- The first check of a command that fails, in the order the command's rule lists them (R103). -/
def firstFault : List (Bool × FaultCode) → Option FaultCode
  | [] => none
  | (failed, code) :: rest => if failed then some code else firstFault rest

/-- Run a command's body when none of its checks fails; else raise the fault of the first that does (R103).
No command executes in part. -/
def checked (port : Port) (checks : List (Bool × FaultCode)) (s : State)
    (body : Host.Outcome State Fault Refusal) : Host.Outcome State Fault Refusal :=
  match firstFault checks with
  | some code => .next (raiseFault port code s)
  | none => body

/-- LC is neither CONFIGURED nor ACTIVE: the LIFECYCLE check of RESET, DRAIN and PEEK (R68, R73, R99). -/
def notInService (s : State) : Bool := decide (s.lc ≠ .configured ∧ s.lc ≠ .active)

/-- A block is in progress (R26). -/
def inBlock (s : State) : Bool := decide (s.br ≠ 0#24)

/-- The packet to execute next, its port, and the state without it.
Where both ports have one waiting, the choice is free (R45 constraint 2); each port's own order is kept (constraint 1). -/
def takePacket (s : State) : Option (Port × Packet × State) :=
  match s.rtIn, s.ctlIn with
  | [], [] => none
  | p :: rest, [] => some (.rt, p, { s with rtIn := rest, arbCount := s.arbCount + 1 })
  | [], q :: rest => some (.ctl, q, { s with ctlIn := rest, arbCount := s.arbCount + 1 })
  | p :: prest, q :: qrest =>
    match Config.arbiter s.arbCount with
    | .rt => some (.rt, p, { s with rtIn := prest, arbCount := s.arbCount + 1 })
    | .ctl => some (.ctl, q, { s with ctlIn := qrest, arbCount := s.arbCount + 1 })

/-- Put a packet where it is taken next: first on its port, the other port empty, no power-on reset asked for. -/
def placePacket (port : Port) (p : Packet) (s : State) : State :=
  match port with
  | .rt => { s with rtIn := p :: s.rtIn, ctlIn := [], powerOnReq := false }
  | .ctl => { s with ctlIn := p :: s.ctlIn, rtIn := [], powerOnReq := false }

/-- Power-on reset: every register at its value in R35, the store's contents unspecified anew, no packet pending (R119, R121).
The responses already given stay given. -/
def powerOn (s : State) : State :=
  { s with
    lc := .uninit, sr := 0x00000000#32, alloc := false, cap := 0#32, wcur := 0#32, rcur := 0#32,
    full := false, clip := false, br := 0#24, ctlRec := 0#32, ctlFmt := 0#32, ctlSave := 0#32,
    faulted := false, fcode := 0#4, storeL := [], storeR := [],
    rtIn := [], ctlIn := [], powerOnReq := false, epoch := s.epoch + 1 }

end Sys2Proof.Machine
end

