-- ==== Sys2Proof/Machine/Operands.lean ====
section
/-! DEFINITION. How operands are read: the recording test (spec/42_stream_processor.md R91), the sample rate as a binary32 number (R12)
and the capacity it gives (R83, R84). IMM24 is read by zero extension (spec/30_encoding.md R54): `BitVec.toNat`. -/

namespace Sys2Proof.Machine

/-- The FRAMEs of the block record: int32(CTL_REC) = RECORD_ACTIVE, on all 32 bits (R91). -/
def recording (s : State) : Bool := decide (s.ctlRec.toInt = s.params.recordActive.toInt)

/-- value(SR): the exact value of a binary32 pattern as a fraction, none for NaN and infinities (R12; log entry 8).
The denominator is a power of two. -/
def binary32 (w : Word) : Option (Int × Nat) :=
  let e := (w.extractLsb' 23 8).toNat
  let f := (w.extractLsb' 0 23).toNat
  if e = 255 then none
  else
    let mant := if e = 0 then f else 2 ^ 23 + f
    let exp := if e = 0 then 1 else e
    let signed : Int := if w.msb then -(mant : Int) else mant
    if 150 ≤ exp then some (signed * 2 ^ (exp - 150), 1) else some (signed, 2 ^ (150 - exp))

/-- CapacityOf(SR): the exact product with MAX_DURATION_S, rounded down once (R83).
Integer division by a positive number rounds down. -/
def capacityOf (p : Params) (sr : Word) : Option Int :=
  match binary32 sr with
  | none => none
  | some (num, den) => some (num * p.durNum / ((den * p.durDen : Nat) : Int))

/-- The capacity ACTIVATE obtains; none is the AllocationError: no capacity, below 1 or above STORE_DEPTH (R84). -/
def allocatable (p : Params) (sr : Word) : Option Nat :=
  match capacityOf p sr with
  | none => none
  | some c => if c < 1 ∨ (p.storeDepth : Int) < c then none else some c.toNat

end Sys2Proof.Machine
end

