-- ==== Sys2Proof/Machine/Flags.lean ====
section
/-! DEFINITION. Every computation of the flags FULL and CLIP (spec/10_state.md R24, R25) and the words software sees them in
(spec/42_stream_processor.md R92, spec/43_inspection.md R98). -/

namespace Sys2Proof.Machine

/-- FULL after a PUSH: stays 1 on an overrun; else set when the write cursor meets the read cursor (R24, R70). -/
def fullAfterPush (full : Bool) (wcurNew rcur : Word) : Bool := full || decide (wcurNew = rcur)

/-- CLIP after a PUSH: set when the ring was already full, the overrun of R72 (R25, R70). -/
def clipAfterPush (clip full : Bool) : Bool := clip || full

/-- FULL after a DRAIN of k frames: cleared when k > 0 (R24, R73). -/
def fullAfterDrain (full : Bool) (k : Nat) : Bool := if 0 < k then false else full

/-- zext_32(CLIP), the clip word of BLOCK and FRAME responses (R57, R92). -/
def clipWord (s : State) : Word := if s.clip then 1#32 else 0#32

/-- The encoding of LC (R17, R98). -/
def lcBits : Lifecycle → BitVec 2
  | .uninit     => 0#2
  | .configured => 1#2
  | .active     => 2#2
  | .destroyed  => 3#2

/-- The STATUS view (R98): FCODE 11:8, FAULTED 5, CLIP 4, FULL 3, ALLOC 2, LC 1:0, every other bit 0. -/
def statusView (s : State) : Word :=
  0#20 ++ s.fcode ++ 0#2 ++ BitVec.ofBool s.faulted ++ BitVec.ofBool s.clip ++ BitVec.ofBool s.full
    ++ BitVec.ofBool s.alloc ++ lcBits s.lc

end Sys2Proof.Machine
end

