-- ==== Sys2Proof/Machine/Inspect.lean ====
section
/-! DEFINITION. The inspection commands RDREG and PEEK (spec/43_inspection.md). -/

namespace Sys2Proof.Machine

/-- View(idx): the register views 0 to 10, none above (R96, R97). -/
def view (s : State) : Nat → Option Word
  | 0 => some (statusView s)
  | 1 => some s.cap
  | 2 => some s.wcur
  | 3 => some s.rcur
  | 4 => some (count s)
  | 5 => some (s.br.setWidth 32)
  | 6 => some s.sr
  | 7 => some s.ctlRec
  | 8 => some s.ctlFmt
  | 9 => some s.ctlSave
  | 10 => some (BitVec.ofNat 32 s.params.storeDepth)
  | _ => none

/-- RDREG (R96): works in every lifecycle state; an index above 10 is BAD_INDEX. -/
def execRdreg (index : Imm24) (s : State) : Host.Outcome State Fault Refusal :=
  match view s index.toNat with
  | none => .next (raiseFault .ctl .badIndex s)
  | some w => .next (respondOk .ctl [w] s)

/-- The checks of PEEK, in code order (R99). -/
def peekChecks (slot : Imm24) (s : State) : List (Bool × FaultCode) :=
  [(notInService s, .lifecycle), (!s.alloc, .noStorage), (decide (s.cap.toNat ≤ slot.toNat), .badIndex)]

/-- PEEK (R99): the frame in one slot; no state changes. -/
def execPeek (slot : Imm24) (s : State) : Host.Outcome State Fault Refusal :=
  checked .ctl (peekChecks slot s) s <|
    match memRead s slot.toNat with
    | .error e => .fault e
    | .ok (l, r) => .next (respondOk .ctl [l, r] s)

end Sys2Proof.Machine
end

