-- ==== Sys2Proof/Machine/RingStore.lean ====
section
/-! DEFINITION. The Ring Buffer Store: PUSH, and the commands RESET and DRAIN (spec/41_ring_buffer_store.md).
CONSTRUCT and DoReset are in Machine/Ops.lean. -/

namespace Sys2Proof.Machine

/-- RCUR after a PUSH: advanced by 1 modulo CAP on an overrun, else unchanged (R22, R70). -/
def rcurAfterPush (full : Bool) (cap rcur : Word) : Word :=
  if full then ringMod cap ((rcur.toNat : Int) + 1) else rcur

/-- PUSH(l, r): append one frame; when the ring is full the oldest unread frame is overwritten (R70, R72). -/
def push (l r : Word) (s : State) : Except Fault State :=
  match memWrite s.wcur.toNat l r s with
  | .error e => .error e
  | .ok t =>
    .ok { t with
      wcur := ringMod s.cap ((s.wcur.toNat : Int) + 1)
      rcur := rcurAfterPush s.full s.cap s.rcur
      full := fullAfterPush s.full (ringMod s.cap ((s.wcur.toNat : Int) + 1)) s.rcur
      clip := clipAfterPush s.clip s.full }

/-- The checks of RESET, in code order (R68). -/
def resetChecks (s : State) : List (Bool × FaultCode) :=
  [(notInService s, .lifecycle), (!s.alloc, .noStorage), (inBlock s, .inBlock)]

/-- RESET (R68). -/
def execReset (s : State) : Host.Outcome State Fault Refusal :=
  checked .ctl (resetChecks s) s (.next (respondOk .ctl [] (doReset s)))

/-- The checks of DRAIN, in code order (R73). -/
def drainChecks (s : State) : List (Bool × FaultCode) :=
  [(notInService s, .lifecycle), (!s.alloc, .noStorage)]

/-- The slot of the j-th unread frame, (RCUR + j) mod CAP (R73). -/
def unreadSlot (s : State) (j : Nat) : Nat := (ringMod s.cap ((s.rcur.toNat : Int) + (j : Int))).toNat

/-- The sample words of `k` unread frames from the j-th on, left word before right word (R57, R73). -/
def readFrames (s : State) (j : Nat) : Nat → Except Fault (List Word)
  | 0 => .ok []
  | k + 1 =>
    match memRead s (unreadSlot s j) with
    | .error e => .error e
    | .ok (l, r) =>
      match readFrames s (j + 1) k with
      | .error e => .error e
      | .ok rest => .ok (l :: r :: rest)

/-- k of DRAIN m: min(m, COUNT) (R73). -/
def drainCount (m : Imm24) (s : State) : Nat := min m.toNat (count s).toNat

/-- The state DRAIN leaves: RCUR moved past k frames, FULL cleared when k > 0, and the response k and 2k words (R73). -/
def drained (k : Nat) (out : List Word) (s : State) : State :=
  respondOk .ctl (BitVec.ofNat 32 k :: out)
    { s with rcur := ringMod s.cap ((s.rcur.toNat : Int) + (k : Int)), full := fullAfterDrain s.full k }

/-- DRAIN m (R73). -/
def execDrain (m : Imm24) (s : State) : Host.Outcome State Fault Refusal :=
  checked .ctl (drainChecks s) s <|
    match readFrames s 0 (drainCount m s) with
    | .error e => .fault e
    | .ok out => .next (drained (drainCount m s) out s)

end Sys2Proof.Machine
end

