-- ==== Sys2Proof/Machine/Stream.lean ====
section
/-! DEFINITION. The Stream Processor: SETUP, ACTIVATE, DEACTIVATE, TEARDOWN, BLOCK and FRAME (spec/42_stream_processor.md). -/

namespace Sys2Proof.Machine

/-- SETUP (R80): the pattern is stored unchanged and not interpreted. -/
def execSetup (sampleRate : Word) (s : State) : Host.Outcome State Fault Refusal :=
  checked .ctl [(decide (s.lc ≠ .uninit), .lifecycle)] s <|
    .next (respondOk .ctl [] { s with sr := sampleRate, lc := .configured })

/-- The state a successful ACTIVATE leaves before its response: CONSTRUCT(c), DoReset, LC <- ACTIVE (R82). -/
def activated (c : Nat) (s : State) : State := { doReset (construct c s) with lc := .active }

/-- ACTIVATE (R82): ERR_ALLOC changes no state (R84). -/
def execActivate (s : State) : Host.Outcome State Fault Refusal :=
  checked .ctl [(decide (s.lc ≠ .configured), .lifecycle)] s <|
    match allocatable s.params s.sr with
    | none => .next (respond .ctl errAllocStatus [] s)
    | some c => .next (respondOk .ctl [] (activated c s))

/-- The checks of DEACTIVATE, in code order (R86). -/
def deactivateChecks (s : State) : List (Bool × FaultCode) :=
  [(decide (s.lc ≠ .active), .lifecycle), (inBlock s, .inBlock)]

/-- DEACTIVATE (R86). -/
def execDeactivate (s : State) : Host.Outcome State Fault Refusal :=
  checked .ctl (deactivateChecks s) s (.next (respondOk .ctl [] { s with lc := .configured }))

/-- TEARDOWN (R87). -/
def execTeardown (s : State) : Host.Outcome State Fault Refusal :=
  checked .ctl [(decide (s.lc ≠ .configured), .lifecycle)] s <|
    .next (respondOk .ctl [] { s with alloc := false, full := false, lc := .destroyed })

/-- The checks of BLOCK, in code order (R88). -/
def blockChecks (s : State) : List (Bool × FaultCode) :=
  [(decide (s.lc ≠ .active), .lifecycle), (inBlock s, .inBlock)]

/-- BLOCK n (R88): latch the controls, owe n frames. -/
def execBlock (n : Imm24) (format record save : Word) (s : State) : Host.Outcome State Fault Refusal :=
  checked .rt (blockChecks s) s <|
    .next (respondOk .rt [clipWord s] { s with ctlFmt := format, ctlRec := record, ctlSave := save, br := n })

/-- The checks of FRAME, in code order (R89). -/
def frameChecks (s : State) : List (Bool × FaultCode) :=
  [(decide (s.lc ≠ .active), .lifecycle), (!inBlock s, .noBlock)]

/-- The end of FRAME: one frame less owed, and the response with the input pair and CLIP after the push (R89, R92). -/
def finishFrame (l r : Word) (s : State) : State :=
  respondOk .rt [l, r, clipWord s] { s with br := s.br - 1#24 }

/-- FRAME (R89): passthrough always, PUSH when the latched record control is the sentinel (R91). -/
def execFrame (l r : Word) (s : State) : Host.Outcome State Fault Refusal :=
  checked .rt (frameChecks s) s <|
    if recording s then
      match push l r s with
      | .error e => .fault e
      | .ok t => .next (finishFrame l r t)
    else .next (finishFrame l r s)

end Sys2Proof.Machine
end

