-- ==== Sys2Proof/Machine/Dispatch.lean ====
section
/-! DEFINITION. One arm per command (spec/30_encoding.md R56): the call of its meaning. -/

namespace Sys2Proof.Machine

/-- Execute one decoded command (R59, last line). -/
def exec (i : Instr) (s : State) : Host.Outcome State Fault Refusal :=
  match i with
  | .setup sampleRate => Sys2Proof.Machine.execSetup sampleRate s
  | .activate => Sys2Proof.Machine.execActivate s
  | .deactivate => Sys2Proof.Machine.execDeactivate s
  | .teardown => Sys2Proof.Machine.execTeardown s
  | .reset => Sys2Proof.Machine.execReset s
  | .drain maxCount => Sys2Proof.Machine.execDrain maxCount s
  | .rdreg index => Sys2Proof.Machine.execRdreg index s
  | .peek slot => Sys2Proof.Machine.execPeek slot s
  | .block frames format record save => Sys2Proof.Machine.execBlock frames format record save s
  | .frame left right => Sys2Proof.Machine.execFrame left right s

end Sys2Proof.Machine
end

