-- ==== Sys2Proof/Machine/Transact.lean ====
section
/-! DEFINITION. One transaction: a packet decoded and executed (spec/30_encoding.md R59). -/

namespace Sys2Proof.Machine

/-- Execute(port, w, d): decode, then the command's rule, or the decoder's fault (R59). -/
def transact (port : Port) (p : Packet) (s : State) : Host.Outcome State Fault Refusal :=
  match decode port p with
  | .error e => .next (raiseFault port (rejectCode e) s)
  | .ok i => exec i s

end Sys2Proof.Machine
end

