-- ==== Sys2Proof/Machine/Step.lean ====
section
/-! DEFINITION. One step: a power-on reset asked for, else the next waiting packet as one transaction (spec/20_memory.md R45,
spec/30_encoding.md R59, spec/70_reset_and_hazards.md R119), else idle (spec/60_exceptions.md R117). -/

namespace Sys2Proof.Machine

/-- One step of the block. With no packet waiting it is idle with its state held (R117, R119; log entry 14). -/
def step (s : State) : Host.Outcome State Fault Refusal :=
  if s.powerOnReq then .next (powerOn s)
  else
    match takePacket s with
    | none => .next s
    | some (port, p, t) => transact port p t

/-- `s` with the packet of the instruction bits `w` of spec/opcode_table.json where the very next step takes it (log entry 13). -/
def State.withFetchWord (s : State) (nbits w : Nat) : State :=
  placePacket (tablePort nbits w) (tablePacket nbits w) s

end Sys2Proof.Machine
end

