-- ==== Sys2Proof/Safety.lean ====
section
/-! DEFINITION. What counts as a safe state and a final run: the invariants of spec/10_state.md R33, those of the store (R32) and of the
capacity (R20, R85), the queue view of spec/41_ring_buffer_store.md R76, and the end of a run of spec/70_reset_and_hazards.md R133. -/

namespace Sys2Proof.Machine

/-- The register invariants of R33, items 1 to 7 in order. -/
structure State.RegInv (s : State) : Prop where
  /-- ALLOC = 1 implies 1 <= CAP <= STORE_DEPTH, WCUR < CAP and RCUR < CAP. -/
  ring : s.alloc = true → 1 ≤ s.cap.toNat ∧ s.cap.toNat ≤ s.params.storeDepth
    ∧ s.wcur.toNat < s.cap.toNat ∧ s.rcur.toNat < s.cap.toNat
  /-- FULL = 1 implies ALLOC = 1 and WCUR = RCUR. -/
  full : s.full = true → s.alloc = true ∧ s.wcur = s.rcur
  /-- LC = ACTIVE implies ALLOC = 1. -/
  active : s.lc = .active → s.alloc = true
  /-- BR > 0 implies LC = ACTIVE. -/
  block : s.br ≠ 0#24 → s.lc = .active
  /-- LC = UNINIT and LC = DESTROYED each imply ALLOC = 0. -/
  released : s.lc = .uninit ∨ s.lc = .destroyed → s.alloc = false
  /-- FAULTED = 0 implies FCODE = 0. -/
  noCode : s.faulted = false → s.fcode = 0#4
  /-- FAULTED = 1 implies 1 <= FCODE <= 7. -/
  code : s.faulted = true → 1 ≤ s.fcode.toNat ∧ s.fcode.toNat ≤ 7
  /-- COUNT <= CAP when ALLOC = 1. -/
  countLe : s.alloc = true → (count s).toNat ≤ s.cap.toNat

/-- The store's invariants: canonical form, only physical slots (R32), and every slot of the ring written since power-on, so that
no command reads an unspecified word (R32, R35). -/
structure State.StoreInv (s : State) : Prop where
  wfL : s.storeL.wf
  wfR : s.storeR.wf
  depthL : ∀ e ∈ s.storeL, e.1 < s.params.storeDepth
  depthR : ∀ e ∈ s.storeR, e.1 < s.params.storeDepth
  listedL : s.alloc = true → ∀ i, i < s.cap.toNat → (s.storeL.find i).isSome
  listedR : s.alloc = true → ∀ i, i < s.cap.toNat → (s.storeR.find i).isSome

/-- While the store is allocated, CAP is the capacity that SR gives (R20, R85). -/
def State.CapInv (s : State) : Prop := s.alloc = true → allocatable s.params s.sr = some s.cap.toNat

/-- The queue view U: the unread frames in write order (R76). -/
def unread (s : State) : List (Word × Word) :=
  (List.range (count s).toNat).map fun j => (s.slotL (unreadSlot s j), s.slotR (unreadSlot s j))

/-- The sample words of frames, left before right (R57). -/
def frameWords (fs : List (Word × Word)) : List Word := fs.flatMap fun f => [f.1, f.2]

/-- The FRAME commands of a list of input frames, in order (R64, R94). -/
def frameCommands (fs : List (Word × Word)) : List Instr := fs.map fun f => .frame f.1 f.2

/-- Execute commands one after another, with no command of another port between them. -/
def execAll : List Instr → State → Host.Outcome State Fault Refusal
  | [], s => .next s
  | i :: rest, s =>
    match exec i s with
    | .next t => execAll rest t
    | .fault e => .fault e
    | .refused r => .refused r

/-- The frame a command records: that of a FRAME in an open block whose record control is the sentinel (R89, R91). -/
def recordedNow (s : State) : Instr → List (Word × Word)
  | .frame l r => if s.lc = .active ∧ s.br ≠ 0#24 ∧ recording s = true then [(l, r)] else []
  | .setup _ | .activate | .deactivate | .teardown | .reset | .drain _ | .rdreg _ | .peek _ | .block _ _ _ _ => []

/-- The frames that commands executed one after another record, in order (R71). -/
def recordedBy : List Instr → State → List (Word × Word)
  | [], _ => []
  | i :: rest, s =>
    match exec i s with
    | .next t => recordedNow s i ++ recordedBy rest t
    | .fault _ => []
    | .refused _ => []

/-- The command moves no frame out of the ring but by a push: it is none of ACTIVATE, RESET, TEARDOWN and DRAIN (R68, R73, R82, R87). -/
def OnlyPushes (i : Instr) : Prop := i ≠ .activate ∧ i ≠ .reset ∧ i ≠ .teardown ∧ ∀ m, i ≠ .drain m

/-- `n` steps one after another, with nothing arriving between them. -/
def runSteps : Nat → State → Host.Outcome State Fault Refusal
  | 0, s => .next s
  | n + 1, s =>
    match step s with
    | .next t => runSteps n t
    | .fault e => .fault e
    | .refused r => .refused r

/-- The transactions of packets in a given total order (R45). -/
def transactAll : List (Port × Packet) → State → Host.Outcome State Fault Refusal
  | [], s => .next s
  | (port, p) :: rest, s =>
    match transact port p s with
    | .next t => transactAll rest t
    | .fault e => .fault e
    | .refused r => .refused r

/-- The packets of one port in a total order, in that order (R45). -/
def packetsOf (port : Port) (order : List (Port × Packet)) : List Packet :=
  order.filterMap fun e => if e.1 = port then some e.2 else none

/-- The responses given on a port (R133). -/
def State.out (s : State) : Port → List Response
  | .rt => s.rtOut
  | .ctl => s.ctlOut

/-- The packets waiting on a port (R45). -/
def State.waiting (s : State) : Port → List Packet
  | .rt => s.rtIn
  | .ctl => s.ctlIn

/-- A run has ended: every packet of both sequences has executed (R133). -/
def State.Ended (s : State) : Prop := s.rtIn = [] ∧ s.ctlIn = []

/-- An ended run is final: no fault recorded, no block unfinished, and the run's own postcondition holds (R133). -/
def State.Final (post : State → Prop) (s : State) : Prop :=
  s.Ended ∧ s.faulted = false ∧ s.br = 0#24 ∧ post s

/-- An ended run is held: a block is unfinished (R133). -/
def State.Held (s : State) : Prop := s.Ended ∧ s.br ≠ 0#24

/-- An ended run is faulted (R133). -/
def State.RunFaulted (s : State) : Prop := s.Ended ∧ s.faulted = true

end Sys2Proof.Machine
end

