-- ==== Sys2Proof/Certificates/Slice0/Obligations.lean ====
section
/-! DEFINITION. The statements about the block, from the numbered rules of spec/. Each docstring names the rules it formalises.
`respondOk`, `respond` and `raiseFault` in the statements of the commands are given in full by ResponseFormat and FaultEffect. -/

open Sys2Proof Sys2Proof.Machine

/-! ### Power-on, the step and the packets -/

/-- R35: the value of every register after power-on reset. The store's contents are unspecified there, so nothing is said of them; the
values of the model's own fields are no part of the rule. -/
def Obligations.PowerOnValues : Prop :=
  State.reset.lc = .uninit ∧ State.reset.sr = 0x00000000#32 ∧ State.reset.alloc = false ∧ State.reset.cap = 0#32
    ∧ State.reset.wcur = 0#32 ∧ State.reset.rcur = 0#32 ∧ State.reset.full = false ∧ State.reset.clip = false
    ∧ State.reset.br = 0#24 ∧ State.reset.ctlRec = 0#32 ∧ State.reset.ctlFmt = 0#32 ∧ State.reset.ctlSave = 0#32
    ∧ State.reset.faulted = false ∧ State.reset.fcode = 0#4

/-- R119, R121 row 1: what a power-on reset leaves, from any state, and that nothing then runs until a packet arrives.
Three clauses are the model's choices: that a power-on reset is asked for through a field of State (log entry 6), that the store then holds
fresh free values (log entry 7), and that the idle step after it answers the same state (log entry 14). -/
def Obligations.PowerOnReset : Prop :=
  ∀ s : State, s.powerOnReq = true →
    ∃ t, step s = .next t
      ∧ t.lc = .uninit ∧ t.sr = 0x00000000#32 ∧ t.alloc = false ∧ t.cap = 0#32 ∧ t.wcur = 0#32 ∧ t.rcur = 0#32
      ∧ t.full = false ∧ t.clip = false ∧ t.br = 0#24 ∧ t.ctlRec = 0#32 ∧ t.ctlFmt = 0#32 ∧ t.ctlSave = 0#32
      ∧ t.faulted = false ∧ t.fcode = 0#4 ∧ t.rtIn = [] ∧ t.ctlIn = [] ∧ t.params = s.params
      ∧ (∀ a, t.slotL a = Config.powerOnL (s.epoch + 1) a ∧ t.slotR a = Config.powerOnR (s.epoch + 1) a)
      ∧ step t = .next t

/-- R117, R119: with no packet waiting the block is idle with its state held.
That such a step is a next state is the model's choice (log entry 14). -/
def Obligations.IdleHoldsState : Prop :=
  ∀ s : State, s.powerOnReq = false → s.rtIn = [] → s.ctlIn = [] → step s = .next s

/-- R45: a packet taken is the first waiting on its port; the other port's packets stay; where one port only has a packet
waiting, that one is taken; where both have, the choice is the free value (log entry 4). -/
def Obligations.PortOrderKept : Prop :=
  ∀ s : State, s.rtIn ≠ [] ∨ s.ctlIn ≠ [] →
    ∃ port p rest t, takePacket s = some (port, p, t)
      ∧ s.waiting port = p :: rest
      ∧ t = { s with
          rtIn := if port = .rt then rest else s.rtIn
          ctlIn := if port = .ctl then rest else s.ctlIn
          arbCount := s.arbCount + 1 }
      ∧ (s.rtIn ≠ [] → s.ctlIn ≠ [] → port = Config.arbiter s.arbCount)

/-- R59: when the packet taken decodes to a command, step is that command executed on the state without the packet. -/
def Obligations.StepRunsDecoded : Prop :=
  ∀ (s t : State) (port : Port) (p : Packet) (i : Instr), s.powerOnReq = false →
    takePacket s = some (port, p, t) → decode port p = .ok i → step s = exec i t

/-- R59: when the packet taken decodes to no command, step is the fault of the decoder's check that failed, on the port it came on. -/
def Obligations.StepRejectsIllegal : Prop :=
  ∀ (s t : State) (port : Port) (p : Packet) (e : Reject), s.powerOnReq = false →
    takePacket s = some (port, p, t) → decode port p = .error e →
      step s = .next (raiseFault port (if e = .wrongPort then .wrongPort else .illegalCmd) t)

/-- The interface: the packet of a table word is the one the next step runs (log entry 13). -/
def Obligations.FetchWordRuns : Prop :=
  ∀ (s : State) (nbits w : Nat) (i : Instr), decodeTableWord nbits w = some i →
    step (s.withFetchWord nbits w)
      = exec i { s with
          rtIn := if i.port = .rt then s.rtIn else []
          ctlIn := if i.port = .ctl then s.ctlIn else []
          powerOnReq := false, arbCount := s.arbCount + 1 }

/-! ### Encodings -/

/-- R66: the eight encoding examples decode to the commands their lines name, and the three illegal words to no command. -/
def Obligations.EncodingExamples : Prop :=
  decode .ctl ⟨0x10000000#32, [0x40800000#32]⟩ = .ok (.setup 0x40800000#32)
    ∧ decode .ctl ⟨0x20000000#32, []⟩ = .ok .activate
    ∧ decode .ctl ⟨0x60000004#32, []⟩ = .ok (.drain 4#24)
    ∧ decode .ctl ⟨0x70000000#32, []⟩ = .ok (.rdreg 0#24)
    ∧ decode .ctl ⟨0x80000003#32, []⟩ = .ok (.peek 3#24)
    ∧ decode .rt ⟨0x90000005#32, [0#32, 1#32, 0#32]⟩ = .ok (.block 5#24 0#32 1#32 0#32)
    ∧ decode .rt ⟨0xA0000000#32, [0x3F800000#32, 0xBF800000#32]⟩ = .ok (.frame 0x3F800000#32 0xBF800000#32)
    ∧ decode .ctl ⟨0x60FFFFFF#32, []⟩ = .ok (.drain 0xFFFFFF#24)
    ∧ decode .ctl ⟨0x61000004#32, []⟩ = .error .reservedBits
    ∧ decode .ctl ⟨0x20000001#32, []⟩ = .error .unusedImm
    ∧ decode .ctl ⟨0xB0000000#32, []⟩ = .error .reservedOp

/-- R52: a command word is OP in bits 31:28, RSV in bits 27:24 and IMM24 in bits 23:0, and the decoder's fields are these bits. -/
def Obligations.CommandWordLayout : Prop :=
  (∀ (op rsv : BitVec 4) (imm : Imm24),
      (commandWord op rsv imm).toNat = op.toNat * 2 ^ 28 + rsv.toNat * 2 ^ 24 + imm.toNat)
    ∧ ∀ w : Word, (opField w).toNat = w.toNat / 2 ^ 28 ∧ (rsvField w).toNat = w.toNat / 2 ^ 24 % 2 ^ 4
        ∧ (immField w).toNat = w.toNat % 2 ^ 24

/-- R52, R53, R56: every command's packet decodes, on the command's port, to that command, whatever its operands. -/
def Obligations.DecodeOfEncode : Prop := ∀ i : Instr, decode i.port (encode i) = .ok i

/-- R52, R53, R56: a packet that decodes to a command is that command's packet, on that command's port: no bit is dropped. -/
def Obligations.EncodeOfDecode : Prop :=
  ∀ (port : Port) (p : Packet) (i : Instr), decode port p = .ok i → encode i = p ∧ i.port = port

/-- R56, R59, R102: the decoder's procedure and the opcode map's masks and patterns agree on which packets are commands, and on
which are commands of the other port. -/
def Obligations.DecoderAgreesWithMap : Prop :=
  ∀ (port : Port) (p : Packet),
    ((∃ i, decode port p = .ok i) ↔ p.legalOn port = true)
      ∧ (decode port p = .error .wrongPort ↔ p.wellFormed = true ∧ p.legalOn port = false)

/-- R60: each illegal encoding faults with ILLEGAL_CMD on either port and does nothing else. -/
def Obligations.IllegalEncodingsFault : Prop :=
  ∀ (port : Port) (w : Word) (d : List Word) (s : State),
    (let op := w.toNat / 2 ^ 28
     op = 0 ∨ 0xB ≤ op ∨ w.toNat / 2 ^ 24 % 2 ^ 4 ≠ 0
       ∨ (op ∈ [0x1, 0x2, 0x3, 0x4, 0x5, 0xA] ∧ w.toNat % 2 ^ 24 ≠ 0)
       ∨ d.length ≠ (if op = 0x1 then 1 else if op = 0x9 then 3 else if op = 0xA then 2 else 0)) →
    transact port ⟨w, d⟩ s = .next (raiseFault port .illegalCmd s)

/-- R102 code 2, R112: BLOCK and FRAME belong to RT and every other command to CTL; on the other port a command faults with
WRONG_PORT, in every state, and does nothing else. -/
def Obligations.WrongPortFaults : Prop :=
  ∀ (i : Instr) (s : State),
    (i.port = .rt ↔ (∃ n f r v, i = .block n f r v) ∨ ∃ x y, i = .frame x y)
      ∧ ∀ port, port ≠ i.port → transact port (encode i) s = .next (raiseFault port .wrongPort s)

/-- R64: each pseudo-instruction stands for commands of one port, the ones the table lists. -/
def Obligations.PseudoExpansions : Prop :=
  (∀ sr, (Pseudo.init sr).expand = [.setup sr, .activate])
    ∧ Pseudo.shutdown.expand = [.deactivate, .teardown]
    ∧ Pseudo.pop.expand = [.drain 1#24]
    ∧ (∀ n f r v fs, (Pseudo.process n f r v fs).expand = .block n f r v :: frameCommands fs)
    ∧ ∀ q : Pseudo, ∃ port, ∀ i ∈ q.expand, i.port = port

/-! ### Responses and faults -/

/-- R57: the status word's fields, the three statuses the block produces, and that a response joins those of its port and changes
nothing else. -/
def Obligations.ResponseFormat : Prop :=
  (∀ (st : BitVec 2) (rc : BitVec 4), (statusWord st rc).toNat = st.toNat + 2 ^ 4 * rc.toNat)
    ∧ okStatus.toNat = 0 ∧ errAllocStatus.toNat = 1
    ∧ (∀ c : FaultCode, (faultStatus c).toNat = 2 + 2 ^ 4 * (faultNum c).toNat)
    ∧ (∀ (w : Word) (d : List Word) (s : State),
        respond .rt w d s = { s with rtOut := s.rtOut ++ [⟨w, d⟩] }
          ∧ respond .ctl w d s = { s with ctlOut := s.ctlOut ++ [⟨w, d⟩] })
    ∧ ∀ (port : Port) (d : List Word) (s : State), respondOk port d s = respond port okStatus d s

/-- R102: the code of each contract fault. -/
def Obligations.FaultCodes : Prop :=
  [FaultCode.illegalCmd, .wrongPort, .lifecycle, .noStorage, .inBlock, .noBlock, .badIndex].map
    (fun c => (faultNum c).toNat) = [1, 2, 3, 4, 5, 6, 7]

/-- R104: the whole effect of raising a fault. -/
def Obligations.FaultEffect : Prop :=
  ∀ (code : FaultCode) (s : State),
    raiseFault .rt code s =
        { s with
          faulted := true, fcode := if s.faulted = false then faultNum code else s.fcode
          rtOut := s.rtOut ++ [⟨faultStatus code, []⟩] }
      ∧ raiseFault .ctl code s =
        { s with
          faulted := true, fcode := if s.faulted = false then faultNum code else s.fcode
          ctlOut := s.ctlOut ++ [⟨faultStatus code, []⟩] }

/-- R105, R31: once a fault is recorded, every step but a power-on reset keeps the record, whatever it executes. -/
def Obligations.FaultRecordSticky : Prop :=
  ∀ s t : State, s.faulted = true → s.powerOnReq = false → step s = .next t → t.faulted = true ∧ t.fcode = s.fcode

/-- R103: a command executes whole or, apart from the record and the response, not at all: its next state is its fault's state, or
ERR_ALLOC's, or no fault is recorded by it and its response is OK. -/
def Obligations.NoPartialExecution : Prop :=
  ∀ (i : Instr) (s t : State), exec i s = .next t →
    (∃ c, t = raiseFault i.port c s)
      ∨ (i = .activate ∧ t = respond .ctl errAllocStatus [] s)
      ∨ (t.faulted = s.faulted ∧ t.fcode = s.fcode ∧ ∃ d, t.out i.port = s.out i.port ++ [⟨okStatus, d⟩])

/-- R48, R57, R58: a waiting packet is executed and gets exactly one response, on its own port; the other port's responses and waiting
packets are untouched; a response that is not OK carries no data, and ERR_ALLOC answers only ACTIVATE. -/
def Obligations.OneResponsePerPacket : Prop :=
  ∀ (s t : State) (port : Port) (p : Packet), s.RegInv → s.powerOnReq = false →
    takePacket s = some (port, p, t) →
    ∃ u r, step s = .next u
      ∧ u.out port = s.out port ++ [r]
      ∧ (∀ other, other ≠ port → u.out other = s.out other ∧ u.waiting other = s.waiting other)
      ∧ s.waiting port = p :: u.waiting port
      ∧ (r.status = okStatus
          ∨ (r = ⟨errAllocStatus, []⟩ ∧ decode port p = .ok .activate)
          ∨ ∃ c, r = ⟨faultStatus c, []⟩)

/-- R45, R133: as many steps as there are packets waiting end the run, each packet giving one response on its port, and the state they
leave is that of the packets' transactions in one total order that keeps each port's order. That the queues and their counter stand in
State is the model's choice (log entries 3 and 4). -/
def Obligations.RunIsAnInterleaving : Prop :=
  ∀ s : State, s.RegInv → s.powerOnReq = false →
    ∃ order t, packetsOf .rt order = s.rtIn ∧ packetsOf .ctl order = s.ctlIn
      ∧ runSteps (s.rtIn.length + s.ctlIn.length) s = .next t
      ∧ transactAll order { s with
          rtIn := [], ctlIn := [], arbCount := s.arbCount + (s.rtIn.length + s.ctlIn.length) } = .next t
      ∧ t.Ended
      ∧ ∀ port, (t.out port).length = (s.out port).length + (s.waiting port).length

/-! ### Invariants -/

/-- R33: the invariants hold after power-on reset; with them those of the store, whose canonical form is the model's (log entry 7), and of
the capacity. -/
def Obligations.InvariantsAtReset : Prop := State.reset.RegInv ∧ State.reset.StoreInv ∧ State.reset.CapInv

/-- R33: every step, of whatever packet, keeps the register invariants. -/
def Obligations.RegisterInvariantKept : Prop := ∀ s t : State, s.RegInv → step s = .next t → t.RegInv

/-- R32, R36, R40: every step keeps the store within STORE_DEPTH and every slot of the ring written, so that no command reads an
unspecified power-on word. The form in which this is said is the model's choice (log entry 7): each channel lists the slots written since
power-on, in strictly rising order, and an unlisted slot holds a free value. -/
def Obligations.StoreInvariantKept : Prop :=
  ∀ s t : State, s.StoreInv → step s = .next t → t.StoreInv

/-- R20, R85: while the store is allocated CAP stays the capacity that SR gives, so re-activation gives the same capacity. -/
def Obligations.CapacityInvariantKept : Prop := ∀ s t : State, s.RegInv → s.CapInv → step s = .next t → t.CapInv

/-- R48, R101: while R33 holds every step answers a next state: the block never stops. -/
def Obligations.BlockNeverStops : Prop := ∀ s : State, s.RegInv → ∃ t, step s = .next t

/-- R8: the parameters are fixed for the lifetime of an instance. -/
def Obligations.ParametersFixed : Prop := ∀ s t : State, step s = .next t → t.params = s.params

/-! ### Derived views -/

/-- R27: COUNT from ALLOC, FULL, CAP and the cursors, wherever the modulus is positive. -/
def Obligations.CountFormula : Prop :=
  ∀ s : State,
    (s.alloc = false → (count s).toNat = 0)
      ∧ (s.alloc = true → s.full = true → (count s).toNat = s.cap.toNat)
      ∧ (s.alloc = true → s.full = false → 0 < s.cap.toNat →
          ((count s).toNat : Int) = ((s.wcur.toNat : Int) - (s.rcur.toNat : Int)) % (s.cap.toNat : Int))

/-- R24: FULL tells the full ring: while ALLOC = 1 it is 1 if and only if COUNT = CAP, and while ALLOC = 0 it is 0. -/
def Obligations.FullMeansCountIsCap : Prop :=
  ∀ s : State, s.RegInv →
    (s.alloc = true → (s.full = true ↔ count s = s.cap)) ∧ (s.alloc = false → s.full = false)

/-- R83, R12: the capacity is the floor of the exact product of the binary32 value of SR and MAX_DURATION_S, and none for the NaN and
infinity patterns. The value of a binary32 pattern is general knowledge, not the spec's (log entry 8). -/
def Obligations.CapacityIsExactFloor : Prop :=
  ∀ (p : Params) (sr : Word),
    let e : Nat := sr.toNat / 2 ^ 23 % 2 ^ 8
    let f : Nat := sr.toNat % 2 ^ 23
    let sign : ℚ := if sr.toNat / 2 ^ 31 = 1 then -1 else 1
    let value : ℚ :=
      if e = 0 then sign * (f / 2 ^ 23) * 2 ^ (-126 : ℤ) else sign * (1 + f / 2 ^ 23) * 2 ^ ((e : ℤ) - 127)
    capacityOf p sr = if e = 255 then none else some ⌊value * ((p.durNum : ℚ) / (p.durDen : ℚ))⌋

/-! ### The commands -/

/-- R80: SETUP. -/
def Obligations.SetupRule : Prop :=
  ∀ (d0 : Word) (s : State),
    encode (.setup d0) = ⟨0x10000000#32, [d0]⟩ ∧ (Instr.setup d0).port = .ctl
      ∧ (s.lc = .uninit →
          exec (.setup d0) s = .next (respondOk .ctl [] { s with sr := d0, lc := .configured }))
      ∧ (s.lc ≠ .uninit → exec (.setup d0) s = .next (raiseFault .ctl .lifecycle s))

/-- R82, with CONSTRUCT (R67), DoReset (R68) and the AllocationError test of R84: ACTIVATE; CapacityIsExactFloor gives `capacityOf`.
On OK the capacity is CapacityOf(SR), slots below it are zero, every other slot and register is as before but those named; otherwise
ERR_ALLOC changes nothing. -/
def Obligations.ActivateRule : Prop :=
  ∀ s : State,
    encode .activate = ⟨0x20000000#32, []⟩ ∧ Instr.activate.port = .ctl
      ∧ (s.lc ≠ .configured → exec .activate s = .next (raiseFault .ctl .lifecycle s))
      ∧ (s.lc = .configured → capacityOf s.params s.sr = none →
          exec .activate s = .next (respond .ctl errAllocStatus [] s))
      ∧ (∀ c, s.lc = .configured → capacityOf s.params s.sr = some c → c < 1 ∨ (s.params.storeDepth : Int) < c →
          exec .activate s = .next (respond .ctl errAllocStatus [] s))
      ∧ ∀ c, s.lc = .configured → capacityOf s.params s.sr = some c → 1 ≤ c → c ≤ (s.params.storeDepth : Int) →
          ∃ t, exec .activate s = .next t
            ∧ t = respondOk .ctl []
                { s with
                  lc := .active, alloc := true, cap := t.cap, wcur := 0#32, rcur := 0#32, full := false, clip := false
                  storeL := t.storeL, storeR := t.storeR }
            ∧ (t.cap.toNat : Int) = c
            ∧ ∀ a, t.slotL a = (if (a : Int) < c then 0x00000000#32 else s.slotL a)
                ∧ t.slotR a = (if (a : Int) < c then 0x00000000#32 else s.slotR a)

/-- R84: a failed ACTIVATE fails again, the same way, and TEARDOWN then goes on. -/
def Obligations.FailedActivateRepeats : Prop :=
  ∀ s t : State, s.lc = .configured → exec .activate s = .next t → t = respond .ctl errAllocStatus [] s →
    exec .activate t = .next (respond .ctl errAllocStatus [] t)
      ∧ ∃ u, exec .teardown t = .next u ∧ u.lc = .destroyed

/-- R85: re-activation keeps the capacity, zero-fills the ring and resets the cursors, FULL and CLIP. -/
def Obligations.ReactivationResetsRing : Prop :=
  ∀ s : State, s.RegInv → s.CapInv → s.lc = .configured → s.alloc = true →
    ∃ t, exec .activate s = .next t ∧ t.lc = .active ∧ t.cap = s.cap ∧ t.wcur = 0#32 ∧ t.rcur = 0#32
      ∧ t.full = false ∧ t.clip = false ∧ unread t = []
      ∧ ∀ a, a < s.cap.toNat → t.slotL a = 0x00000000#32 ∧ t.slotR a = 0x00000000#32

/-- R86: DEACTIVATE. -/
def Obligations.DeactivateRule : Prop :=
  ∀ s : State,
    encode .deactivate = ⟨0x30000000#32, []⟩ ∧ Instr.deactivate.port = .ctl
      ∧ (s.lc = .active → s.br = 0#24 → exec .deactivate s = .next (respondOk .ctl [] { s with lc := .configured }))
      ∧ (s.lc ≠ .active → exec .deactivate s = .next (raiseFault .ctl .lifecycle s))
      ∧ (s.lc = .active → s.br ≠ 0#24 → exec .deactivate s = .next (raiseFault .ctl .inBlock s))

/-- R87: TEARDOWN. -/
def Obligations.TeardownRule : Prop :=
  ∀ s : State,
    encode .teardown = ⟨0x40000000#32, []⟩ ∧ Instr.teardown.port = .ctl
      ∧ (s.lc = .configured →
          exec .teardown s = .next (respondOk .ctl [] { s with alloc := false, full := false, lc := .destroyed }))
      ∧ (s.lc ≠ .configured → exec .teardown s = .next (raiseFault .ctl .lifecycle s))

/-- R68: RESET. -/
def Obligations.ResetRule : Prop :=
  ∀ s : State,
    encode .reset = ⟨0x50000000#32, []⟩ ∧ Instr.reset.port = .ctl
      ∧ (s.lc = .configured ∨ s.lc = .active → s.alloc = true → s.br = 0#24 →
          exec .reset s
            = .next (respondOk .ctl [] { s with wcur := 0#32, rcur := 0#32, full := false, clip := false }))
      ∧ (s.lc = .uninit ∨ s.lc = .destroyed → exec .reset s = .next (raiseFault .ctl .lifecycle s))
      ∧ (s.lc = .configured ∨ s.lc = .active → s.alloc = false → exec .reset s = .next (raiseFault .ctl .noStorage s))
      ∧ (s.lc = .configured ∨ s.lc = .active → s.alloc = true → s.br ≠ 0#24 →
          exec .reset s = .next (raiseFault .ctl .inBlock s))

/-- R69, which the spec derives from R68: a second RESET answers OK and changes nothing more. -/
def Obligations.ResetIdempotent : Prop :=
  ∀ s : State, s.lc = .configured ∨ s.lc = .active → s.alloc = true → s.br = 0#24 →
    ∃ t, exec .reset s = .next t ∧ t.wcur = 0#32 ∧ t.rcur = 0#32 ∧ t.full = false ∧ t.clip = false
      ∧ exec .reset t = .next (respondOk .ctl [] t)

/-- R73: DRAIN, while R33 holds: k = min(m, COUNT) frames from RCUR on, left word before right word; RCUR moves past them, FULL is
cleared when k > 0, nothing else changes; its faults. -/
def Obligations.DrainRule : Prop :=
  ∀ (m : Imm24) (s : State), s.RegInv →
    encode (.drain m) = ⟨0x60000000#32 ||| m.setWidth 32, []⟩ ∧ (Instr.drain m).port = .ctl
      ∧ transact .rt (encode (.drain m)) s = .next (raiseFault .rt .wrongPort s)
      ∧ (s.lc = .configured ∨ s.lc = .active → s.alloc = true →
          let k := min m.toNat (count s).toNat
          exec (.drain m) s
            = .next (respondOk .ctl
                (BitVec.ofNat 32 k :: (List.range k).flatMap fun j =>
                  [s.slotL ((s.rcur.toNat + j) % s.cap.toNat), s.slotR ((s.rcur.toNat + j) % s.cap.toNat)])
                { s with
                  rcur := BitVec.ofNat 32 ((s.rcur.toNat + k) % s.cap.toNat)
                  full := if 0 < k then false else s.full }))
      ∧ (s.lc = .uninit ∨ s.lc = .destroyed → exec (.drain m) s = .next (raiseFault .ctl .lifecycle s))
      ∧ (s.lc = .configured ∨ s.lc = .active → s.alloc = false →
          exec (.drain m) s = .next (raiseFault .ctl .noStorage s))

/-- R96, R97, R98: RDREG: the eleven views, in every lifecycle state; a higher index is BAD_INDEX; nothing but the response changes.
View 4 is COUNT, which CountFormula gives. -/
def Obligations.RdregRule : Prop :=
  ∀ s : State,
    (∀ idx : Imm24, encode (.rdreg idx) = ⟨0x70000000#32 ||| idx.setWidth 32, []⟩ ∧ (Instr.rdreg idx).port = .ctl
        ∧ (10 < idx.toNat → exec (.rdreg idx) s = .next (raiseFault .ctl .badIndex s)))
      ∧ (∃ w, exec (.rdreg 0#24) s = .next (respondOk .ctl [w] s)
          ∧ w.toNat = (match s.lc with | .uninit => 0 | .configured => 1 | .active => 2 | .destroyed => 3)
              + 2 ^ 2 * s.alloc.toNat + 2 ^ 3 * s.full.toNat + 2 ^ 4 * s.clip.toNat + 2 ^ 5 * s.faulted.toNat
              + 2 ^ 8 * s.fcode.toNat)
      ∧ exec (.rdreg 1#24) s = .next (respondOk .ctl [s.cap] s)
      ∧ exec (.rdreg 2#24) s = .next (respondOk .ctl [s.wcur] s)
      ∧ exec (.rdreg 3#24) s = .next (respondOk .ctl [s.rcur] s)
      ∧ exec (.rdreg 4#24) s = .next (respondOk .ctl [count s] s)
      ∧ exec (.rdreg 5#24) s = .next (respondOk .ctl [s.br.setWidth 32] s)
      ∧ exec (.rdreg 6#24) s = .next (respondOk .ctl [s.sr] s)
      ∧ exec (.rdreg 7#24) s = .next (respondOk .ctl [s.ctlRec] s)
      ∧ exec (.rdreg 8#24) s = .next (respondOk .ctl [s.ctlFmt] s)
      ∧ exec (.rdreg 9#24) s = .next (respondOk .ctl [s.ctlSave] s)
      ∧ ∃ w, exec (.rdreg 10#24) s = .next (respondOk .ctl [w] s) ∧ w.toNat = s.params.storeDepth

/-- R99: PEEK, while R33 holds: the frame of one slot below CAP; nothing but the response changes; its faults in their order. -/
def Obligations.PeekRule : Prop :=
  ∀ (k : Imm24) (s : State), s.RegInv →
    encode (.peek k) = ⟨0x80000000#32 ||| k.setWidth 32, []⟩ ∧ (Instr.peek k).port = .ctl
      ∧ (s.lc = .configured ∨ s.lc = .active → s.alloc = true → k.toNat < s.cap.toNat →
          exec (.peek k) s = .next (respondOk .ctl [s.slotL k.toNat, s.slotR k.toNat] s))
      ∧ (s.lc = .uninit ∨ s.lc = .destroyed → exec (.peek k) s = .next (raiseFault .ctl .lifecycle s))
      ∧ (s.lc = .configured ∨ s.lc = .active → s.alloc = false → exec (.peek k) s = .next (raiseFault .ctl .noStorage s))
      ∧ (s.lc = .configured ∨ s.lc = .active → s.alloc = true → s.cap.toNat ≤ k.toNat →
          exec (.peek k) s = .next (raiseFault .ctl .badIndex s))

/-- R88: BLOCK. -/
def Obligations.BlockRule : Prop :=
  ∀ (n : Imm24) (d0 d1 d2 : Word) (s : State),
    encode (.block n d0 d1 d2) = ⟨0x90000000#32 ||| n.setWidth 32, [d0, d1, d2]⟩
      ∧ (Instr.block n d0 d1 d2).port = .rt
      ∧ transact .ctl (encode (.block n d0 d1 d2)) s = .next (raiseFault .ctl .wrongPort s)
      ∧ (s.lc = .active → s.br = 0#24 →
          exec (.block n d0 d1 d2) s
            = .next (respondOk .rt [if s.clip then 1#32 else 0#32]
                { s with ctlFmt := d0, ctlRec := d1, ctlSave := d2, br := n }))
      ∧ (s.lc ≠ .active → exec (.block n d0 d1 d2) s = .next (raiseFault .rt .lifecycle s))
      ∧ (s.lc = .active → s.br ≠ 0#24 → exec (.block n d0 d1 d2) s = .next (raiseFault .rt .inBlock s))

/-- R89, R91: FRAME. In a block whose record control is not the sentinel it returns its input pair and owes one frame less, and nothing
else changes, in particular no slot. In a block whose record control is the sentinel it does PUSH as well (R70, R72; while R33 holds): its
pair is written at WCUR and at no other slot, and WCUR moves on; when FULL = 0 it sets FULL exactly if the cursors then meet, when FULL = 1
it moves RCUR with WCUR and sets CLIP; the clip word is CLIP after the push. Then its faults. -/
def Obligations.FrameRule : Prop :=
  ∀ (l r : Word) (s : State),
    encode (.frame l r) = ⟨0xA0000000#32, [l, r]⟩ ∧ (Instr.frame l r).port = .rt
      ∧ transact .ctl (encode (.frame l r)) s = .next (raiseFault .ctl .wrongPort s)
      ∧ (s.lc = .active → s.br ≠ 0#24 → s.ctlRec.toInt ≠ s.params.recordActive.toInt →
          exec (.frame l r) s
            = .next (respondOk .rt [l, r, if s.clip then 1#32 else 0#32] { s with br := s.br - 1#24 }))
      ∧ (s.RegInv → s.lc = .active → s.br ≠ 0#24 → s.ctlRec.toInt = s.params.recordActive.toInt →
          ∃ t, exec (.frame l r) s = .next t
            ∧ t = respondOk .rt [l, r, if t.clip then 1#32 else 0#32]
                { s with
                  wcur := t.wcur, rcur := t.rcur, full := t.full, clip := t.clip, br := s.br - 1#24
                  storeL := t.storeL, storeR := t.storeR }
            ∧ t.wcur.toNat = (s.wcur.toNat + 1) % s.cap.toNat
            ∧ (s.full = false → t.rcur = s.rcur ∧ t.clip = s.clip ∧ (t.full = true ↔ t.wcur = s.rcur))
            ∧ (s.full = true → t.rcur.toNat = (s.rcur.toNat + 1) % s.cap.toNat ∧ t.clip = true ∧ t.full = true)
            ∧ ∀ a, t.slotL a = (if a = s.wcur.toNat then l else s.slotL a)
                ∧ t.slotR a = (if a = s.wcur.toNat then r else s.slotR a))
      ∧ (s.lc ≠ .active → exec (.frame l r) s = .next (raiseFault .rt .lifecycle s))
      ∧ (s.lc = .active → s.br = 0#24 → exec (.frame l r) s = .next (raiseFault .rt .noBlock s))

/-- R90, which the spec derives from R89: a FRAME that executes answers OK with its input words unchanged as its output words, whether or
not it records, and with CLIP after its push (R92). -/
def Obligations.PassthroughUnconditional : Prop :=
  ∀ (l r : Word) (s t : State), s.lc = .active → s.br ≠ 0#24 → exec (.frame l r) s = .next t →
    t.rtOut = s.rtOut ++ [⟨okStatus, [l, r, if t.clip then 1#32 else 0#32]⟩] ∧ t.br.toNat + 1 = s.br.toNat

/-! ### Frames and whole-machine rules -/

/-- R17 to R31: of all commands, only those the rules name write each register; the fault record changes only from FAULTED = 0, and only
in a state that `raiseFault` gives. STORE_L and STORE_R are StoreWriters'. That no command changes the model's own fields is no rule of
the spec's: the parameters (log entry 1), the waiting packets (3), the choice counter (4), the power-on request (6) and the count of
power-on resets (7). -/
def Obligations.RegisterWriters : Prop :=
  ∀ (i : Instr) (s t : State), exec i s = .next t →
    (t.lc ≠ s.lc → (∃ d0, i = .setup d0) ∨ i = .activate ∨ i = .deactivate ∨ i = .teardown)
      ∧ (t.sr ≠ s.sr → ∃ d0, i = .setup d0)
      ∧ (t.alloc ≠ s.alloc → i = .activate ∨ i = .teardown)
      ∧ (t.cap ≠ s.cap → i = .activate)
      ∧ (t.wcur ≠ s.wcur → i = .activate ∨ i = .reset ∨ ∃ l r, i = .frame l r)
      ∧ (t.rcur ≠ s.rcur → i = .activate ∨ i = .reset ∨ (∃ m, i = .drain m) ∨ ∃ l r, i = .frame l r)
      ∧ (t.full ≠ s.full →
          i = .activate ∨ i = .reset ∨ i = .teardown ∨ (∃ m, i = .drain m) ∨ ∃ l r, i = .frame l r)
      ∧ (t.clip ≠ s.clip → i = .activate ∨ i = .reset ∨ ∃ l r, i = .frame l r)
      ∧ (t.br ≠ s.br → (∃ n f r v, i = .block n f r v) ∨ ∃ l r, i = .frame l r)
      ∧ (t.ctlRec ≠ s.ctlRec ∨ t.ctlFmt ≠ s.ctlFmt ∨ t.ctlSave ≠ s.ctlSave → ∃ n f r v, i = .block n f r v)
      ∧ (t.faulted ≠ s.faulted ∨ t.fcode ≠ s.fcode → s.faulted = false ∧ ∃ c, t = raiseFault i.port c s)
      ∧ t.params = s.params ∧ t.rtIn = s.rtIn ∧ t.ctlIn = s.ctlIn ∧ t.arbCount = s.arbCount
      ∧ t.powerOnReq = s.powerOnReq ∧ t.epoch = s.epoch

/-- R78, R32: of all commands only FRAME and ACTIVATE change what a slot holds: FRAME the slot WCUR, below CAP, ACTIVATE slots below the
new CAP. No command changes a slot at or above CAP. -/
def Obligations.StoreWriters : Prop :=
  ∀ (i : Instr) (s t : State), exec i s = .next t → ∀ a, t.slotL a ≠ s.slotL a ∨ t.slotR a ≠ s.slotR a →
    ((∃ l r, i = .frame l r) ∧ a = s.wcur.toNat ∧ a < s.cap.toNat) ∨ (i = .activate ∧ a < t.cap.toNat)

/-- R17, R79: a command changes LC along the edges of the lifecycle and no others. -/
def Obligations.LifecycleEdges : Prop :=
  ∀ (i : Instr) (s t : State), exec i s = .next t → t.lc ≠ s.lc →
    (s.lc = .uninit ∧ t.lc = .configured ∧ ∃ d0, i = .setup d0)
      ∨ (s.lc = .configured ∧ t.lc = .active ∧ i = .activate)
      ∨ (s.lc = .active ∧ t.lc = .configured ∧ i = .deactivate)
      ∨ (s.lc = .configured ∧ t.lc = .destroyed ∧ i = .teardown)

/-- R79, R117: DESTROYED is terminal: every command but RDREG faults with LIFECYCLE there, and no step but a power-on reset leaves it. -/
def Obligations.DestroyedIsTerminal : Prop :=
  (∀ (i : Instr) (s : State), s.lc = .destroyed → (∀ idx, i ≠ .rdreg idx) →
      exec i s = .next (raiseFault i.port .lifecycle s))
    ∧ ∀ s t : State, s.lc = .destroyed → s.powerOnReq = false → step s = .next t → t.lc = .destroyed

/-- R25, R72: CLIP is set only by a FRAME that finds the ring full, and cleared only by RESET and ACTIVATE. -/
def Obligations.ClipSetOnlyByOverrun : Prop :=
  ∀ (i : Instr) (s t : State), exec i s = .next t →
    (s.clip = false → t.clip = true → s.full = true ∧ recording s = true ∧ ∃ l r, i = .frame l r)
      ∧ (s.clip = true → t.clip = false → i = .reset ∨ i = .activate)

/-- R123: while a block is in progress, DEACTIVATE and RESET fault with IN_BLOCK and SETUP, ACTIVATE and TEARDOWN with LIFECYCLE, each
with no other effect. -/
def Obligations.LifecycleRefusedInBlock : Prop :=
  ∀ (s : State) (d0 : Word), s.RegInv → s.br ≠ 0#24 →
    exec .deactivate s = .next (raiseFault .ctl .inBlock s)
      ∧ exec .reset s = .next (raiseFault .ctl .inBlock s)
      ∧ exec .activate s = .next (raiseFault .ctl .lifecycle s)
      ∧ exec (.setup d0) s = .next (raiseFault .ctl .lifecycle s)
      ∧ exec .teardown s = .next (raiseFault .ctl .lifecycle s)

/-- R93, R29, R30: the latched format and save values have no effect: but for RDREG 8 and 9, which read them, and BLOCK, which writes
them, a command does the same whatever they hold and leaves them as they are. -/
def Obligations.FormatAndSaveInert : Prop :=
  ∀ (i : Instr) (s : State) (fmt sav : Word), i ≠ .rdreg 8#24 → i ≠ .rdreg 9#24 → (∀ n f r v, i ≠ .block n f r v) →
    exec i { s with ctlFmt := fmt, ctlSave := sav }
      = match exec i s with
        | .next t => .next { t with ctlFmt := fmt, ctlSave := sav }
        | .fault e => .fault e
        | .refused r => .refused r

/-! ### The ring as a queue -/

/-- R76, which the spec derives from R68, R70 and R73: the ring is a bounded queue that drops its oldest frame when pushed full. -/
def Obligations.RingIsBoundedQueue : Prop :=
  ∀ s : State, s.RegInv →
    (s.lc = .configured ∨ s.lc = .active → s.alloc = true → s.br = 0#24 →
        ∃ t, exec .reset s = .next t ∧ unread t = [])
      ∧ (∀ l r : Word, s.lc = .active → s.br ≠ 0#24 → s.ctlRec.toInt = s.params.recordActive.toInt →
          ∃ t, exec (.frame l r) s = .next t
            ∧ if (unread s).length < s.cap.toNat then unread t = unread s ++ [(l, r)] ∧ t.clip = s.clip
              else unread t = (unread s).tail ++ [(l, r)] ∧ t.clip = true)
      ∧ ∀ m : Imm24, s.lc = .configured ∨ s.lc = .active → s.alloc = true →
          ∃ t, exec (.drain m) s = .next t
            ∧ t.ctlOut = s.ctlOut
                ++ [⟨okStatus, BitVec.ofNat 32 (min m.toNat (unread s).length) :: frameWords ((unread s).take m.toNat)⟩]
            ∧ unread t = (unread s).drop m.toNat

/-- R71, which the spec derives from R68 and R70: the cursors, FULL, CLIP and the unread frames after any number of recorded FRAMEs from a
ring just reset: up to CAP nothing is lost, beyond it exactly the last CAP frames are kept. Any commands that neither drain nor reset nor
release the ring may stand between and around the FRAMEs, so the FRAMEs may be those of any number of blocks. First, that in an open
recording block every FRAME owed is a recorded one. -/
def Obligations.PushesAfterReset : Prop :=
  (∀ (s : State) (fs : List (Word × Word)), s.RegInv → s.lc = .active →
      s.ctlRec.toInt = s.params.recordActive.toInt → fs.length ≤ s.br.toNat → recordedBy (frameCommands fs) s = fs)
    ∧ ∀ (s : State) (cs : List Instr), s.RegInv → s.alloc = true →
      s.wcur = 0#32 → s.rcur = 0#32 → s.full = false → s.clip = false → (∀ i ∈ cs, OnlyPushes i) →
      let fs := recordedBy cs s
      ∃ t, execAll cs s = .next t
        ∧ t.cap = s.cap
        ∧ t.wcur.toNat = fs.length % s.cap.toNat
        ∧ (fs.length ≤ s.cap.toNat → t.rcur = 0#32 ∧ (t.full = true ↔ fs.length = s.cap.toNat) ∧ t.clip = false)
        ∧ (s.cap.toNat < fs.length → t.rcur.toNat = fs.length % s.cap.toNat ∧ t.full = true ∧ t.clip = true)
        ∧ unread t = fs.drop (fs.length - s.cap.toNat)

/-- R74, which the spec derives: p <= CAP frames recorded into an empty ring, with any commands about them that neither drain nor reset nor
release the ring, come back whole and in write order from one DRAIN p, and a DRAIN of any m after it returns none. DRAIN's operand holds p
below 2^24. -/
def Obligations.DrainReturnsWhatWasPushed : Prop :=
  ∀ (s : State) (cs : List Instr), s.RegInv → s.alloc = true → unread s = [] → (∀ i ∈ cs, OnlyPushes i) →
    let fs := recordedBy cs s
    fs.length ≤ s.cap.toNat → fs.length < 2 ^ 24 →
    ∃ t u, execAll cs s = .next t
      ∧ exec (.drain (BitVec.ofNat 24 fs.length)) t = .next u
      ∧ u.ctlOut = t.ctlOut ++ [⟨okStatus, BitVec.ofNat 32 fs.length :: frameWords fs⟩]
      ∧ ∀ m : Imm24, exec (.drain m) u = .next (respondOk .ctl [0#32] u)

/-- R95, which the spec derives: a whole block whose record control is not the sentinel, with no other packet between, returns every input
frame unchanged and changes nothing but the latched controls; BR ends at 0. -/
def Obligations.UnrecordedBlockOnlyPasses : Prop :=
  ∀ (s : State) (n : Imm24) (fmt rec sav : Word) (fs : List (Word × Word)),
    s.lc = .active → s.br = 0#24 → rec.toInt ≠ s.params.recordActive.toInt → fs.length = n.toNat →
    execAll ((Pseudo.process n fmt rec sav fs).expand) s
      = .next { s with
          ctlFmt := fmt, ctlRec := rec, ctlSave := sav, br := 0#24
          rtOut := s.rtOut ++ ⟨okStatus, [if s.clip then 1#32 else 0#32]⟩
            :: fs.map fun f => ⟨okStatus, [f.1, f.2, if s.clip then 1#32 else 0#32]⟩ }

/-- R109, R94, R90, which the spec derives: a whole block issued in ACTIVE with no block open, whatever its controls and whatever CTL
commands run between and after its FRAMEs, is answered OK throughout on RT, every FRAME with its own input words, and leaves no block
open. With only DRAIN, PEEK and RDREG among the CTL commands, the ones R94 lets succeed there, the block stays ACTIVE; with their indices in
range no fault is recorded; with no CTL command nothing is answered on CTL. -/
def Obligations.WholeBlockNeverErrs : Prop :=
  ∀ (s : State) (n : Imm24) (fmt rec sav : Word) (fs : List (Word × Word)) (cs : List Instr), s.RegInv →
    s.lc = .active → s.br = 0#24 → fs.length = n.toNat → cs.filter (fun i => i.port = .rt) = frameCommands fs →
    ∃ t rs, execAll (.block n fmt rec sav :: cs) s = .next t
      ∧ t.rtOut = s.rtOut ++ ⟨okStatus, [if s.clip then 1#32 else 0#32]⟩ :: rs
      ∧ List.Forall₂ (fun f r => ∃ clip : Bool, r = ⟨okStatus, [f.1, f.2, if clip then 1#32 else 0#32]⟩) fs rs
      ∧ t.br = 0#24
      ∧ ((∀ i ∈ cs, i.port = .ctl → (∃ m, i = .drain m) ∨ (∃ k, i = .peek k) ∨ ∃ idx, i = .rdreg idx) → t.lc = .active)
      ∧ ((∀ i ∈ cs, i.port = .ctl →
            (∃ m, i = .drain m) ∨ (∃ k, i = .peek k ∧ k.toNat < s.cap.toNat) ∨ ∃ idx, i = .rdreg idx ∧ idx.toNat ≤ 10) →
          t.faulted = s.faulted ∧ t.fcode = s.fcode)
      ∧ ((∀ i ∈ cs, i.port = .rt) → t.ctlOut = s.ctlOut)

/-- R77, which the spec derives: in a ring of capacity 1 both cursors are 0; the first recorded FRAME sets FULL and leaves CLIP, every later
one replaces slot 0 and sets CLIP. -/
def Obligations.CapacityOneRing : Prop :=
  ∀ (l r : Word) (s : State), s.RegInv → s.alloc = true → s.cap = 1#32 →
    s.wcur = 0#32 ∧ s.rcur = 0#32
      ∧ (s.lc = .active → s.br ≠ 0#24 → s.ctlRec.toInt = s.params.recordActive.toInt →
          ∃ t, exec (.frame l r) s = .next t ∧ t.wcur = 0#32 ∧ t.rcur = 0#32 ∧ t.full = true
            ∧ t.clip = (s.clip || s.full) ∧ unread t = [(l, r)])

/-- R126, R127, which the spec derives: a recorded FRAME after which CLIP is 0 has discarded nothing. -/
def Obligations.ClearClipMeansNothingLost : Prop :=
  ∀ (l r : Word) (s t : State), s.RegInv → s.lc = .active → s.br ≠ 0#24 → recording s = true →
    exec (.frame l r) s = .next t → t.clip = false → unread t = unread s ++ [(l, r)]
end

