-- ==== Sys2Proof/Laws/Decode.lean ====
section
/-! SUPPORT. The three fields of a command word (spec/30_encoding.md R52): each is read back as it was put in, and they are the whole word. -/

namespace Sys2Proof

@[simp] theorem opField_commandWord (op rsv : BitVec 4) (imm : Imm24) : opField (commandWord op rsv imm) = op := by
  unfold opField commandWord
  ext i hi
  simp only [BitVec.getElem_extractLsb', BitVec.getLsbD_append]
  have h1 : ¬ 28 + i < 24 := by omega
  have h2 : ¬ 28 + i - 24 < 4 := by omega
  have h3 : 28 + i - 24 - 4 = i := by omega
  simp [h1, h2, h3, BitVec.getLsbD_eq_getElem hi]

@[simp] theorem rsvField_commandWord (op rsv : BitVec 4) (imm : Imm24) : rsvField (commandWord op rsv imm) = rsv := by
  unfold rsvField commandWord
  ext i hi
  simp only [BitVec.getElem_extractLsb', BitVec.getLsbD_append]
  have h1 : ¬ 24 + i < 24 := by omega
  have h3 : 24 + i - 24 = i := by omega
  simp [h1, h3, hi]

@[simp] theorem immField_commandWord (op rsv : BitVec 4) (imm : Imm24) : immField (commandWord op rsv imm) = imm := by
  unfold immField commandWord
  ext i hi
  simp only [BitVec.getElem_extractLsb', BitVec.getLsbD_append]
  simp [hi]

/-- A word is made of its three fields. -/
theorem commandWord_fields (w : Word) : commandWord (opField w) (rsvField w) (immField w) = w := by
  unfold commandWord opField rsvField immField
  ext i hi
  simp only [BitVec.getElem_append, BitVec.getElem_extractLsb']
  split
  · simp [BitVec.getLsbD_eq_getElem hi]
  · split
    · have : 24 + (i - 24) = i := by omega
      simp [this, BitVec.getLsbD_eq_getElem hi]
    · have : 28 + (i - 24 - 4) = i := by omega
      simp [this, BitVec.getLsbD_eq_getElem hi]

@[simp] theorem ofField_field (op : Opcode) : Opcode.ofField op.field = some op := by cases op <;> rfl

/-- The OP values that name an opcode name it by its own value. -/
theorem field_of_ofField {b : BitVec 4} {op : Opcode} (h : Opcode.ofField b = some op) : op.field = b := by
  revert b; cases op <;> decide

theorem decode_cases {port : Port} {p : Packet} {i : Instr} (h : decode port p = .ok i) :
    ∃ op, Opcode.ofField (opField p.word) = some op ∧ rsvField p.word = 0#4
      ∧ (op.usesImm = false → immField p.word = 0#24) ∧ p.data.length = op.dataWords ∧ op.port = port
      ∧ i = assemble op (immField p.word) p.data := by
  unfold decode at h
  split at h
  · cases h
  · rename_i op hop
    split at h
    · cases h
    · split at h
      · cases h
      · split at h
        · cases h
        · split at h
          · cases h
          · rename_i h1 h2 h3 h4
            cases h
            exact ⟨op, hop, by simpa using h1, by simpa using h2, by simpa using h3, by simpa using h4, rfl⟩

/-- The three fields of a word as numbers (R52). -/
theorem field_toNat (w : Word) :
    (opField w).toNat = w.toNat / 2 ^ 28 ∧ (rsvField w).toNat = w.toNat / 2 ^ 24 % 2 ^ 4
      ∧ (immField w).toNat = w.toNat % 2 ^ 24 := by
  refine ⟨?_, ?_, ?_⟩
  · simp only [opField, BitVec.extractLsb'_toNat, Nat.shiftRight_eq_div_pow]; have := w.isLt; omega
  · simp only [rsvField, BitVec.extractLsb'_toNat, Nat.shiftRight_eq_div_pow]
  · simp [immField, BitVec.extractLsb'_toNat]

/-- The mask of a row without an operand leaves the whole word (R56). -/
theorem and_full_mask (op : BitVec 4) (w : Word) : (w &&& 0xFFFFFFFF#32 == commandWord op 0#4 0#24)
      = decide (opField w = op ∧ rsvField w = 0#4 ∧ immField w = 0#24) := by
  have : w &&& 0xFFFFFFFF#32 = w := by
    have h : 0xFFFFFFFF#32 = BitVec.allOnes 32 := by decide
    rw [h, BitVec.and_allOnes]
  rw [this, Bool.eq_iff_iff]
  simp only [beq_iff_eq, decide_eq_true_eq]
  constructor
  · rintro rfl; simp
  · rintro ⟨h1, h2, h3⟩; rw [← h1, ← h2, ← h3, commandWord_fields]

/-- The mask of a row with an operand leaves OP and RSV (R56). -/
theorem and_operand_mask (op : BitVec 4) (w : Word) : (w &&& 0xFF000000#32 == commandWord op 0#4 0#24)
      = decide (opField w = op ∧ rsvField w = 0#4) := by
  have : w &&& 0xFF000000#32 = commandWord (opField w) (rsvField w) 0#24 := by
    have hm : ∀ i : Fin 32, (0xFF000000#32).getLsbD i.val = decide (24 ≤ i.val) := by decide
    conv_lhs => rw [← commandWord_fields w]
    unfold commandWord
    ext i hi
    have := hm ⟨i, hi⟩
    simp only [BitVec.getElem_and, BitVec.getElem_append, BitVec.getLsbD_eq_getElem hi] at this ⊢
    rw [this]
    split
    · rename_i h
      rw [decide_eq_false (by omega), Bool.and_false]
      exact ((BitVec.getElem_append ..).trans (by simp [h])).symm
    · rename_i h
      rw [decide_eq_true (by omega), Bool.and_true]
      exact ((BitVec.getElem_append ..).trans (by rw [dif_neg h]; exact BitVec.getElem_append ..)).symm
  rw [this, Bool.eq_iff_iff]
  simp only [beq_iff_eq, decide_eq_true_eq]
  constructor
  · intro h
    have h1 := congrArg opField h
    have h2 := congrArg rsvField h
    simpa using And.intro h1 h2
  · rintro ⟨h1, h2⟩; rw [h1, h2]

/-- An operand stands in the low bits of the row's bit pattern (R52, R56). -/
theorem commandWord_or_imm (op : BitVec 4) (m : Imm24) :
    commandWord op 0#4 m = (commandWord op 0#4 0#24 ||| m.setWidth 32) := by
  unfold commandWord
  ext i hi
  simp only [BitVec.getElem_or, BitVec.getElem_setWidth]
  rw [BitVec.getElem_append, BitVec.getElem_append]
  split
  · simp [BitVec.getLsbD_eq_getElem, *]
  · rename_i h; simp [BitVec.getLsbD_of_ge m i (by omega)]

end Sys2Proof
end

