-- ==== Sys2Proof/Laws/Memory.lean ====
section
/-! SUPPORT. The laws of the sample store: what a slot holds after a write and after a zero-fill (spec/20_memory.md R38 to R40), and that
every operation keeps the canonical form. -/

namespace Sys2Proof.Machine

@[simp] theorem find_nil (i : Nat) : Memory.find [] i = none := rfl

theorem find_cons (a : Nat) (w : Word) (m : Memory) (i : Nat) :
    Memory.find ((a, w) :: m) i = if i = a then some w else Memory.find m i := rfl

theorem find_none_of_not_mem {m : Memory} {i : Nat} (h : ∀ e ∈ m, e.1 ≠ i) : m.find i = none := by
  induction m with
  | nil => rfl
  | cons e m ih =>
    obtain ⟨a, w⟩ := e
    have ha : i ≠ a := fun h' => h (a, w) (by simp) h'.symm
    simp only [find_cons, if_neg ha]
    exact ih fun e he => h e (by simp [he])

/-- Reading a slot after a write: the word written there, what it held elsewhere (R40). -/
theorem find_put (m : Memory) (i j : Nat) (v : Word) :
    (m.put i v).find j = if j = i then some v else m.find j := by
  induction m with
  | nil => simp [Memory.put, find_cons]
  | cons e m ih =>
    obtain ⟨a, w⟩ := e
    simp only [Memory.put]
    split
    · simp only [find_cons]
    · split
      · rename_i _ h
        subst h
        simp only [find_cons]
        split <;> simp_all
      · rename_i h1 h2
        simp only [find_cons, ih]
        by_cases hj : j = a
        · subst hj; simp [Ne.symm h2]
        · simp [hj]

theorem mem_put {m : Memory} {i : Nat} {v : Word} {e : Nat × Word} (h : e ∈ m.put i v) : e = (i, v) ∨ e ∈ m := by
  induction m with
  | nil => simpa [Memory.put] using h
  | cons x m ih =>
    obtain ⟨a, w⟩ := x
    simp only [Memory.put] at h
    split at h
    · simpa using h
    · split at h
      · rcases List.mem_cons.1 h with h | h
        · exact .inl h
        · exact .inr (List.mem_cons_of_mem _ h)
      · rcases List.mem_cons.1 h with h | h
        · exact .inr (h ▸ List.mem_cons_self ..)
        · exact (ih h).imp_right (List.mem_cons_of_mem _)

/-- A write keeps the canonical form. -/
theorem wf_put {m : Memory} (hm : m.wf) (i : Nat) (v : Word) : (m.put i v).wf := by
  induction m with
  | nil => simp [Memory.put, Memory.wf]
  | cons x m ih =>
    obtain ⟨a, w⟩ := x
    obtain ⟨h1, h2⟩ : (∀ e ∈ m, a < e.1) ∧ Memory.wf m := by simpa [Memory.wf] using hm
    simp only [Memory.put]
    split
    · rename_i hlt
      refine List.pairwise_cons.2 ⟨?_, hm⟩
      intro e he
      rcases List.mem_cons.1 he with rfl | he
      · exact hlt
      · exact Nat.lt_trans hlt (h1 e he)
    · split
      · rename_i h; subst h
        exact List.pairwise_cons.2 ⟨h1, h2⟩
      · refine List.pairwise_cons.2 ⟨?_, ih h2⟩
        intro e he
        rcases mem_put he with rfl | he
        · simp only; omega
        · exact h1 e he

theorem put_below {m : Memory} {d i : Nat} (v : Word) (hm : ∀ e ∈ m, e.1 < d) (hi : i < d) :
    ∀ e ∈ m.put i v, e.1 < d := by
  intro e he
  rcases mem_put he with rfl | he
  · exact hi
  · exact hm e he

theorem find_append (m n : Memory) (j : Nat) : Memory.find (m ++ n) j = (m.find j).or (n.find j) := by
  induction m with
  | nil => simp
  | cons e m ih =>
    obtain ⟨a, w⟩ := e
    simp only [List.cons_append, find_cons, ih]
    split <;> rfl

theorem find_zeros (c j : Nat) :
    Memory.find ((List.range c).map fun i => (i, 0x00000000#32)) j = if j < c then some 0#32 else none := by
  induction c with
  | zero => rfl
  | succ c ih =>
    rw [List.range_succ, List.map_append, find_append, ih]
    simp only [List.map_cons, List.map_nil, find_cons, find_nil]
    by_cases h1 : j < c
    · simp [h1, Nat.lt_succ_of_lt h1]
    · by_cases h2 : j = c
      · simp [h2]
      · have : ¬ j < c + 1 := by omega
        simp [h1, h2, this]

theorem find_filter_from (c : Nat) (m : Memory) (j : Nat) (hj : c ≤ j) :
    Memory.find (m.filter fun e => decide (c ≤ e.1)) j = m.find j := by
  induction m with
  | nil => rfl
  | cons e m ih =>
    obtain ⟨a, w⟩ := e
    by_cases ha : c ≤ a
    · simp [ha, find_cons, ih]
    · have : j ≠ a := by omega
      simp [ha, find_cons, ih, this]

/-- Reading a slot after a zero-fill of slots below `c` (R67). -/
theorem find_zeroBelow (c : Nat) (m : Memory) (j : Nat) :
    (m.zeroBelow c).find j = if j < c then some 0#32 else m.find j := by
  rw [Memory.zeroBelow, find_append, find_zeros]
  by_cases h : j < c
  · simp [h]
  · simp [h, find_filter_from c m j (Nat.le_of_not_lt h)]

/-- A zero-fill keeps the canonical form. -/
theorem wf_zeroBelow {m : Memory} (hm : m.wf) (c : Nat) : (m.zeroBelow c).wf := by
  refine List.pairwise_append.2 ⟨?_, List.Pairwise.filter _ hm, ?_⟩
  · exact List.pairwise_map.2 List.pairwise_lt_range
  · intro a ha b hb
    obtain ⟨i, hi, rfl⟩ := List.mem_map.1 ha
    have := List.mem_range.1 hi
    have := (List.mem_filter.1 hb).2
    simp only [decide_eq_true_eq] at this
    simp only
    omega

theorem zeroBelow_below {m : Memory} {d c : Nat} (hm : ∀ e ∈ m, e.1 < d) (hc : c ≤ d) :
    ∀ e ∈ m.zeroBelow c, e.1 < d := by
  intro e he
  rcases List.mem_append.1 he with he | he
  · obtain ⟨i, hi, rfl⟩ := List.mem_map.1 he
    have := List.mem_range.1 hi
    simp only
    omega
  · exact hm e (List.mem_filter.1 he).1

end Sys2Proof.Machine
end

