-- ==== Sys2Proof/Laws/State.lean ====
section
/-! SUPPORT. One lemma per field per shared update of the state, each true by rfl, so that no later proof unfolds an update. -/

namespace Sys2Proof.Machine

/-! Fields after `respond`. -/

section respond

variable (port : Port) (w : Word) (d : List Word) (s : State)

@[simp] theorem respond_lc : (respond port w d s).lc = s.lc := rfl
@[simp] theorem respond_sr : (respond port w d s).sr = s.sr := rfl
@[simp] theorem respond_alloc : (respond port w d s).alloc = s.alloc := rfl
@[simp] theorem respond_cap : (respond port w d s).cap = s.cap := rfl
@[simp] theorem respond_wcur : (respond port w d s).wcur = s.wcur := rfl
@[simp] theorem respond_rcur : (respond port w d s).rcur = s.rcur := rfl
@[simp] theorem respond_full : (respond port w d s).full = s.full := rfl
@[simp] theorem respond_clip : (respond port w d s).clip = s.clip := rfl
@[simp] theorem respond_br : (respond port w d s).br = s.br := rfl
@[simp] theorem respond_ctlRec : (respond port w d s).ctlRec = s.ctlRec := rfl
@[simp] theorem respond_ctlFmt : (respond port w d s).ctlFmt = s.ctlFmt := rfl
@[simp] theorem respond_ctlSave : (respond port w d s).ctlSave = s.ctlSave := rfl
@[simp] theorem respond_faulted : (respond port w d s).faulted = s.faulted := rfl
@[simp] theorem respond_fcode : (respond port w d s).fcode = s.fcode := rfl
@[simp] theorem respond_storeL : (respond port w d s).storeL = s.storeL := rfl
@[simp] theorem respond_storeR : (respond port w d s).storeR = s.storeR := rfl
@[simp] theorem respond_params : (respond port w d s).params = s.params := rfl
@[simp] theorem respond_rtIn : (respond port w d s).rtIn = s.rtIn := rfl
@[simp] theorem respond_ctlIn : (respond port w d s).ctlIn = s.ctlIn := rfl
@[simp] theorem respond_arbCount : (respond port w d s).arbCount = s.arbCount := rfl
@[simp] theorem respond_powerOnReq : (respond port w d s).powerOnReq = s.powerOnReq := rfl
@[simp] theorem respond_epoch : (respond port w d s).epoch = s.epoch := rfl

end respond

@[simp] theorem respond_rtOut_rt (w : Word) (d : List Word) (s : State) :
    (respond .rt w d s).rtOut = s.rtOut ++ [⟨w, d⟩] := rfl
@[simp] theorem respond_ctlOut_rt (w : Word) (d : List Word) (s : State) :
    (respond .rt w d s).ctlOut = s.ctlOut := rfl
@[simp] theorem respond_rtOut_ctl (w : Word) (d : List Word) (s : State) :
    (respond .ctl w d s).rtOut = s.rtOut := rfl
@[simp] theorem respond_ctlOut_ctl (w : Word) (d : List Word) (s : State) :
    (respond .ctl w d s).ctlOut = s.ctlOut ++ [⟨w, d⟩] := rfl

/-! Fields after `respondOk`. -/

section respondOk

variable (port : Port) (d : List Word) (s : State)

@[simp] theorem respondOk_lc : (respondOk port d s).lc = s.lc := rfl
@[simp] theorem respondOk_sr : (respondOk port d s).sr = s.sr := rfl
@[simp] theorem respondOk_alloc : (respondOk port d s).alloc = s.alloc := rfl
@[simp] theorem respondOk_cap : (respondOk port d s).cap = s.cap := rfl
@[simp] theorem respondOk_wcur : (respondOk port d s).wcur = s.wcur := rfl
@[simp] theorem respondOk_rcur : (respondOk port d s).rcur = s.rcur := rfl
@[simp] theorem respondOk_full : (respondOk port d s).full = s.full := rfl
@[simp] theorem respondOk_clip : (respondOk port d s).clip = s.clip := rfl
@[simp] theorem respondOk_br : (respondOk port d s).br = s.br := rfl
@[simp] theorem respondOk_ctlRec : (respondOk port d s).ctlRec = s.ctlRec := rfl
@[simp] theorem respondOk_ctlFmt : (respondOk port d s).ctlFmt = s.ctlFmt := rfl
@[simp] theorem respondOk_ctlSave : (respondOk port d s).ctlSave = s.ctlSave := rfl
@[simp] theorem respondOk_faulted : (respondOk port d s).faulted = s.faulted := rfl
@[simp] theorem respondOk_fcode : (respondOk port d s).fcode = s.fcode := rfl
@[simp] theorem respondOk_storeL : (respondOk port d s).storeL = s.storeL := rfl
@[simp] theorem respondOk_storeR : (respondOk port d s).storeR = s.storeR := rfl
@[simp] theorem respondOk_params : (respondOk port d s).params = s.params := rfl
@[simp] theorem respondOk_rtIn : (respondOk port d s).rtIn = s.rtIn := rfl
@[simp] theorem respondOk_ctlIn : (respondOk port d s).ctlIn = s.ctlIn := rfl
@[simp] theorem respondOk_arbCount : (respondOk port d s).arbCount = s.arbCount := rfl
@[simp] theorem respondOk_powerOnReq : (respondOk port d s).powerOnReq = s.powerOnReq := rfl
@[simp] theorem respondOk_epoch : (respondOk port d s).epoch = s.epoch := rfl

end respondOk

@[simp] theorem respondOk_rtOut_rt (d : List Word) (s : State) :
    (respondOk .rt d s).rtOut = s.rtOut ++ [⟨okStatus, d⟩] := rfl
@[simp] theorem respondOk_ctlOut_rt (d : List Word) (s : State) : (respondOk .rt d s).ctlOut = s.ctlOut := rfl
@[simp] theorem respondOk_rtOut_ctl (d : List Word) (s : State) : (respondOk .ctl d s).rtOut = s.rtOut := rfl
@[simp] theorem respondOk_ctlOut_ctl (d : List Word) (s : State) :
    (respondOk .ctl d s).ctlOut = s.ctlOut ++ [⟨okStatus, d⟩] := rfl

/-! Fields after `raiseFault`. -/

section raiseFault

variable (port : Port) (code : FaultCode) (s : State)

@[simp] theorem raiseFault_lc : (raiseFault port code s).lc = s.lc := rfl
@[simp] theorem raiseFault_sr : (raiseFault port code s).sr = s.sr := rfl
@[simp] theorem raiseFault_alloc : (raiseFault port code s).alloc = s.alloc := rfl
@[simp] theorem raiseFault_cap : (raiseFault port code s).cap = s.cap := rfl
@[simp] theorem raiseFault_wcur : (raiseFault port code s).wcur = s.wcur := rfl
@[simp] theorem raiseFault_rcur : (raiseFault port code s).rcur = s.rcur := rfl
@[simp] theorem raiseFault_full : (raiseFault port code s).full = s.full := rfl
@[simp] theorem raiseFault_clip : (raiseFault port code s).clip = s.clip := rfl
@[simp] theorem raiseFault_br : (raiseFault port code s).br = s.br := rfl
@[simp] theorem raiseFault_ctlRec : (raiseFault port code s).ctlRec = s.ctlRec := rfl
@[simp] theorem raiseFault_ctlFmt : (raiseFault port code s).ctlFmt = s.ctlFmt := rfl
@[simp] theorem raiseFault_ctlSave : (raiseFault port code s).ctlSave = s.ctlSave := rfl
@[simp] theorem raiseFault_faulted : (raiseFault port code s).faulted = true := rfl
@[simp] theorem raiseFault_fcode : (raiseFault port code s).fcode = (if s.faulted then s.fcode else faultNum code) := rfl
@[simp] theorem raiseFault_storeL : (raiseFault port code s).storeL = s.storeL := rfl
@[simp] theorem raiseFault_storeR : (raiseFault port code s).storeR = s.storeR := rfl
@[simp] theorem raiseFault_params : (raiseFault port code s).params = s.params := rfl
@[simp] theorem raiseFault_rtIn : (raiseFault port code s).rtIn = s.rtIn := rfl
@[simp] theorem raiseFault_ctlIn : (raiseFault port code s).ctlIn = s.ctlIn := rfl
@[simp] theorem raiseFault_arbCount : (raiseFault port code s).arbCount = s.arbCount := rfl
@[simp] theorem raiseFault_powerOnReq : (raiseFault port code s).powerOnReq = s.powerOnReq := rfl
@[simp] theorem raiseFault_epoch : (raiseFault port code s).epoch = s.epoch := rfl

end raiseFault

@[simp] theorem raiseFault_rtOut_rt (code : FaultCode) (s : State) :
    (raiseFault .rt code s).rtOut = s.rtOut ++ [⟨faultStatus code, []⟩] := rfl
@[simp] theorem raiseFault_ctlOut_rt (code : FaultCode) (s : State) :
    (raiseFault .rt code s).ctlOut = s.ctlOut := rfl
@[simp] theorem raiseFault_rtOut_ctl (code : FaultCode) (s : State) :
    (raiseFault .ctl code s).rtOut = s.rtOut := rfl
@[simp] theorem raiseFault_ctlOut_ctl (code : FaultCode) (s : State) :
    (raiseFault .ctl code s).ctlOut = s.ctlOut ++ [⟨faultStatus code, []⟩] := rfl

/-! Fields after `doReset`. -/

section doReset

variable (s : State)

@[simp] theorem doReset_lc : (doReset s).lc = s.lc := rfl
@[simp] theorem doReset_sr : (doReset s).sr = s.sr := rfl
@[simp] theorem doReset_alloc : (doReset s).alloc = s.alloc := rfl
@[simp] theorem doReset_cap : (doReset s).cap = s.cap := rfl
@[simp] theorem doReset_wcur : (doReset s).wcur = 0#32 := rfl
@[simp] theorem doReset_rcur : (doReset s).rcur = 0#32 := rfl
@[simp] theorem doReset_full : (doReset s).full = false := rfl
@[simp] theorem doReset_clip : (doReset s).clip = false := rfl
@[simp] theorem doReset_br : (doReset s).br = s.br := rfl
@[simp] theorem doReset_ctlRec : (doReset s).ctlRec = s.ctlRec := rfl
@[simp] theorem doReset_ctlFmt : (doReset s).ctlFmt = s.ctlFmt := rfl
@[simp] theorem doReset_ctlSave : (doReset s).ctlSave = s.ctlSave := rfl
@[simp] theorem doReset_faulted : (doReset s).faulted = s.faulted := rfl
@[simp] theorem doReset_fcode : (doReset s).fcode = s.fcode := rfl
@[simp] theorem doReset_storeL : (doReset s).storeL = s.storeL := rfl
@[simp] theorem doReset_storeR : (doReset s).storeR = s.storeR := rfl
@[simp] theorem doReset_params : (doReset s).params = s.params := rfl
@[simp] theorem doReset_rtIn : (doReset s).rtIn = s.rtIn := rfl
@[simp] theorem doReset_ctlIn : (doReset s).ctlIn = s.ctlIn := rfl
@[simp] theorem doReset_rtOut : (doReset s).rtOut = s.rtOut := rfl
@[simp] theorem doReset_ctlOut : (doReset s).ctlOut = s.ctlOut := rfl
@[simp] theorem doReset_arbCount : (doReset s).arbCount = s.arbCount := rfl
@[simp] theorem doReset_powerOnReq : (doReset s).powerOnReq = s.powerOnReq := rfl
@[simp] theorem doReset_epoch : (doReset s).epoch = s.epoch := rfl

end doReset

/-! Fields after `construct`. -/

section construct

variable (c : Nat) (s : State)

@[simp] theorem construct_lc : (construct c s).lc = s.lc := rfl
@[simp] theorem construct_sr : (construct c s).sr = s.sr := rfl
@[simp] theorem construct_alloc : (construct c s).alloc = true := rfl
@[simp] theorem construct_cap : (construct c s).cap = BitVec.ofNat 32 c := rfl
@[simp] theorem construct_wcur : (construct c s).wcur = s.wcur := rfl
@[simp] theorem construct_rcur : (construct c s).rcur = s.rcur := rfl
@[simp] theorem construct_full : (construct c s).full = s.full := rfl
@[simp] theorem construct_clip : (construct c s).clip = s.clip := rfl
@[simp] theorem construct_br : (construct c s).br = s.br := rfl
@[simp] theorem construct_ctlRec : (construct c s).ctlRec = s.ctlRec := rfl
@[simp] theorem construct_ctlFmt : (construct c s).ctlFmt = s.ctlFmt := rfl
@[simp] theorem construct_ctlSave : (construct c s).ctlSave = s.ctlSave := rfl
@[simp] theorem construct_faulted : (construct c s).faulted = s.faulted := rfl
@[simp] theorem construct_fcode : (construct c s).fcode = s.fcode := rfl
@[simp] theorem construct_storeL : (construct c s).storeL = s.storeL.zeroBelow c := rfl
@[simp] theorem construct_storeR : (construct c s).storeR = s.storeR.zeroBelow c := rfl
@[simp] theorem construct_params : (construct c s).params = s.params := rfl
@[simp] theorem construct_rtIn : (construct c s).rtIn = s.rtIn := rfl
@[simp] theorem construct_ctlIn : (construct c s).ctlIn = s.ctlIn := rfl
@[simp] theorem construct_rtOut : (construct c s).rtOut = s.rtOut := rfl
@[simp] theorem construct_ctlOut : (construct c s).ctlOut = s.ctlOut := rfl
@[simp] theorem construct_arbCount : (construct c s).arbCount = s.arbCount := rfl
@[simp] theorem construct_powerOnReq : (construct c s).powerOnReq = s.powerOnReq := rfl
@[simp] theorem construct_epoch : (construct c s).epoch = s.epoch := rfl

end construct

/-! Fields after `powerOn`. -/

section powerOn

variable (s : State)

@[simp] theorem powerOn_lc : (powerOn s).lc = .uninit := rfl
@[simp] theorem powerOn_sr : (powerOn s).sr = 0#32 := rfl
@[simp] theorem powerOn_alloc : (powerOn s).alloc = false := rfl
@[simp] theorem powerOn_cap : (powerOn s).cap = 0#32 := rfl
@[simp] theorem powerOn_wcur : (powerOn s).wcur = 0#32 := rfl
@[simp] theorem powerOn_rcur : (powerOn s).rcur = 0#32 := rfl
@[simp] theorem powerOn_full : (powerOn s).full = false := rfl
@[simp] theorem powerOn_clip : (powerOn s).clip = false := rfl
@[simp] theorem powerOn_br : (powerOn s).br = 0#24 := rfl
@[simp] theorem powerOn_ctlRec : (powerOn s).ctlRec = 0#32 := rfl
@[simp] theorem powerOn_ctlFmt : (powerOn s).ctlFmt = 0#32 := rfl
@[simp] theorem powerOn_ctlSave : (powerOn s).ctlSave = 0#32 := rfl
@[simp] theorem powerOn_faulted : (powerOn s).faulted = false := rfl
@[simp] theorem powerOn_fcode : (powerOn s).fcode = 0#4 := rfl
@[simp] theorem powerOn_storeL : (powerOn s).storeL = [] := rfl
@[simp] theorem powerOn_storeR : (powerOn s).storeR = [] := rfl
@[simp] theorem powerOn_params : (powerOn s).params = s.params := rfl
@[simp] theorem powerOn_rtIn : (powerOn s).rtIn = [] := rfl
@[simp] theorem powerOn_ctlIn : (powerOn s).ctlIn = [] := rfl
@[simp] theorem powerOn_rtOut : (powerOn s).rtOut = s.rtOut := rfl
@[simp] theorem powerOn_ctlOut : (powerOn s).ctlOut = s.ctlOut := rfl
@[simp] theorem powerOn_arbCount : (powerOn s).arbCount = s.arbCount := rfl
@[simp] theorem powerOn_powerOnReq : (powerOn s).powerOnReq = false := rfl
@[simp] theorem powerOn_epoch : (powerOn s).epoch = s.epoch + 1 := rfl

end powerOn

end Sys2Proof.Machine
end

