-- ==== Sys2Proof/Laws/Ops.lean ====
section
/-! SUPPORT. What each shared operation can do, said once: the checks of a command, the slot accesses, the cursor arithmetic, the unread
count and the packet queues. -/

namespace Sys2Proof.Machine

/-! ### Checks (R103) -/

@[simp] theorem firstFault_nil : firstFault [] = none := rfl

theorem firstFault_cons (b : Bool) (c : FaultCode) (rest : List (Bool × FaultCode)) :
    firstFault ((b, c) :: rest) = if b then some c else firstFault rest := rfl

@[simp] theorem firstFault_cons_none {b : Bool} {c : FaultCode} {rest : List (Bool × FaultCode)} :
    firstFault ((b, c) :: rest) = none ↔ b = false ∧ firstFault rest = none := by
  cases b <;> simp [firstFault_cons]

/-- A checked command either raises one of its faults or runs its body. -/
theorem checked_cases (port : Port) (checks : List (Bool × FaultCode)) (s : State)
    (body : Host.Outcome State Fault Refusal) :
    (∃ c, firstFault checks = some c ∧ checked port checks s body = .next (raiseFault port c s))
      ∨ (firstFault checks = none ∧ checked port checks s body = body) := by
  unfold checked
  cases h : firstFault checks with
  | none => exact .inr ⟨rfl, rfl⟩
  | some c => exact .inl ⟨c, rfl, rfl⟩

theorem checked_none {port : Port} {checks : List (Bool × FaultCode)} {s : State}
    {body : Host.Outcome State Fault Refusal} (h : firstFault checks = none) :
    checked port checks s body = body := by simp only [checked, h]

theorem checked_some {port : Port} {checks : List (Bool × FaultCode)} {s : State}
    {body : Host.Outcome State Fault Refusal} {c : FaultCode} (h : firstFault checks = some c) :
    checked port checks s body = .next (raiseFault port c s) := by simp only [checked, h]

@[simp] theorem notInService_eq_false (s : State) :
    notInService s = false ↔ s.lc = .configured ∨ s.lc = .active := by
  unfold notInService; cases s.lc <;> simp

@[simp] theorem notInService_eq_true (s : State) :
    notInService s = true ↔ s.lc = .uninit ∨ s.lc = .destroyed := by
  unfold notInService; cases s.lc <;> simp

@[simp] theorem inBlock_eq_true (s : State) : inBlock s = true ↔ s.br ≠ 0#24 := by simp [inBlock]

@[simp] theorem inBlock_eq_false (s : State) : inBlock s = false ↔ s.br = 0#24 := by simp [inBlock]

/-! ### Status words (R57) -/

theorem statusWord_toNat (st : BitVec 2) (rc : BitVec 4) : (statusWord st rc).toNat = st.toNat + 16 * rc.toNat := by
  revert st rc; decide

/-! ### Slot accesses (R38, R39) -/

theorem slotCheck_ok {s : State} {i : Nat} (ha : s.alloc = true) (hc : i < s.cap.toNat)
    (hd : i < s.params.storeDepth) : slotCheck s i = .ok () := by
  simp [slotCheck, ha, Nat.not_le.2 hc, Nat.not_le.2 hd]

/-- A slot access that the model does not stop is made with ALLOC = 1, below CAP and below STORE_DEPTH. -/
theorem slotCheck_inv {s : State} {i : Nat} (h : slotCheck s i = .ok ()) :
    s.alloc = true ∧ i < s.cap.toNat ∧ i < s.params.storeDepth := by
  unfold slotCheck at h
  split at h
  · cases h
  · split at h
    · cases h
    · rename_i h1 h2
      rw [not_or] at h1
      exact ⟨by simpa using h1.1, Nat.lt_of_not_le h1.2, Nat.lt_of_not_le h2⟩

theorem memRead_ok {s : State} {i : Nat} (ha : s.alloc = true) (hc : i < s.cap.toNat)
    (hd : i < s.params.storeDepth) : memRead s i = .ok (s.slotL i, s.slotR i) := by
  simp [memRead, slotCheck_ok ha hc hd]

theorem memWrite_ok {s : State} {i : Nat} (l r : Word) (ha : s.alloc = true) (hc : i < s.cap.toNat)
    (hd : i < s.params.storeDepth) :
    memWrite i l r s = .ok { s with storeL := s.storeL.put i l, storeR := s.storeR.put i r } := by
  simp [memWrite, slotCheck_ok ha hc hd]

theorem memWrite_inv {s t : State} {i : Nat} {l r : Word} (h : memWrite i l r s = .ok t) :
    slotCheck s i = .ok () ∧ t = { s with storeL := s.storeL.put i l, storeR := s.storeR.put i r } := by
  unfold memWrite at h
  cases hc : slotCheck s i with
  | error e => rw [hc] at h; cases h
  | ok u => rw [hc] at h; cases h; exact ⟨rfl, rfl⟩

/-! ### Cursor arithmetic (R10, R27, R37) -/

theorem ringMod_toNat {cap : Word} (hc : 0 < cap.toNat) (x : Int) :
    ((ringMod cap x).toNat : Int) = x % (cap.toNat : Int) := by
  have h0 : cap ≠ 0#32 := by rintro rfl; simp at hc
  have h1 : 0 ≤ x % (cap.toNat : Int) := Int.emod_nonneg _ (by omega)
  have h2 : x % (cap.toNat : Int) < cap.toNat := Int.emod_lt_of_pos _ (by omega)
  have h3 := cap.isLt
  rw [ringMod, if_neg h0, BitVec.toNat_ofInt]
  have : x % (cap.toNat : Int) % ((2 ^ 32 : Nat) : Int) = x % (cap.toNat : Int) :=
    Int.emod_eq_of_lt h1 (by omega)
  rw [this, Int.toNat_of_nonneg h1]

theorem ringMod_natCast_toNat {cap : Word} (hc : 0 < cap.toNat) (x : Nat) :
    (ringMod cap (x : Int)).toNat = x % cap.toNat := by
  have := ringMod_toNat hc (x : Int)
  omega

/-- The cursor that follows `w` (R21, R22). -/
theorem ringMod_succ_toNat {cap : Word} (hc : 0 < cap.toNat) (w : Word) :
    (ringMod cap ((w.toNat : Int) + 1)).toNat = (w.toNat + 1) % cap.toNat := by
  have := ringMod_natCast_toNat hc (w.toNat + 1)
  simpa using this

theorem ringMod_lt {cap : Word} (hc : 0 < cap.toNat) (x : Int) : (ringMod cap x).toNat < cap.toNat := by
  have h := ringMod_toNat hc x
  have h2 : x % (cap.toNat : Int) < cap.toNat := Int.emod_lt_of_pos _ (by omega)
  omega

theorem unreadSlot_eq {s : State} (hc : 0 < s.cap.toNat) (j : Nat) :
    unreadSlot s j = (s.rcur.toNat + j) % s.cap.toNat := by
  have := ringMod_natCast_toNat hc (s.rcur.toNat + j)
  simpa [unreadSlot] using this

/-! ### The unread count (R27) -/

theorem count_unallocated {s : State} (h : s.alloc = false) : count s = 0#32 := by simp [count, h]

theorem count_full {s : State} (ha : s.alloc = true) (h : s.full = true) : count s = s.cap := by simp [count, ha, h]

theorem count_not_full {s : State} (ha : s.alloc = true) (h : s.full = false) (hc : 0 < s.cap.toNat) :
    ((count s).toNat : Int) = ((s.wcur.toNat : Int) - s.rcur.toNat) % (s.cap.toNat : Int) := by
  simp [count, ha, h, ringMod_toNat hc]

theorem count_le {s : State} (ha : s.alloc = true) (hc : 0 < s.cap.toNat) : (count s).toNat ≤ s.cap.toNat := by
  cases h : s.full with
  | true => rw [count_full ha h]
  | false =>
    have h1 := count_not_full ha h hc
    have h2 : ((s.wcur.toNat : Int) - s.rcur.toNat) % (s.cap.toNat : Int) < s.cap.toNat :=
      Int.emod_lt_of_pos _ (by omega)
    omega

/-- COUNT of a ring that is not full, with the subtraction done in naturals. -/
theorem count_cases {s : State} (ha : s.alloc = true) (h : s.full = false)
    (hw : s.wcur.toNat < s.cap.toNat) (hr : s.rcur.toNat < s.cap.toNat) :
    (s.rcur.toNat ≤ s.wcur.toNat ∧ (count s).toNat = s.wcur.toNat - s.rcur.toNat)
      ∨ (s.wcur.toNat < s.rcur.toNat ∧ (count s).toNat = s.wcur.toNat + s.cap.toNat - s.rcur.toNat) := by
  have h1 := count_not_full ha h (by omega)
  rcases Nat.lt_or_ge s.wcur.toNat s.rcur.toNat with hlt | hge
  · right
    refine ⟨hlt, ?_⟩
    have : ((s.wcur.toNat : Int) - s.rcur.toNat) % (s.cap.toNat : Int)
        = (s.wcur.toNat : Int) - s.rcur.toNat + s.cap.toNat := by
      rw [← Int.add_emod_right]; exact Int.emod_eq_of_lt (by omega) (by omega)
    omega
  · left
    refine ⟨hge, ?_⟩
    have : ((s.wcur.toNat : Int) - s.rcur.toNat) % (s.cap.toNat : Int) = (s.wcur.toNat : Int) - s.rcur.toNat :=
      Int.emod_eq_of_lt (by omega) (by omega)
    omega

/-! ### Slots after the store operations -/

/-- Slots after MemWrite: the pair written at `i`, every other slot as before (R39, R40). -/
theorem slot_memWrite {s t : State} {i : Nat} {l r : Word} (h : memWrite i l r s = .ok t) (a : Nat) :
    t.slotL a = (if a = i then l else s.slotL a) ∧ t.slotR a = (if a = i then r else s.slotR a) := by
  obtain ⟨-, rfl⟩ := memWrite_inv h
  simp only [State.slotL, State.slotR, find_put]
  constructor <;> split <;> rfl

/-- Slots after CONSTRUCT(c): zero below c, as before from c on (R67). -/
theorem slot_construct (c : Nat) (s : State) (a : Nat) :
    (construct c s).slotL a = (if a < c then 0#32 else s.slotL a)
      ∧ (construct c s).slotR a = (if a < c then 0#32 else s.slotR a) := by
  simp only [State.slotL, State.slotR, construct_storeL, construct_storeR, construct_epoch, find_zeroBelow]
  constructor <;> split <;> rfl

/-! ### The packet queues (R45) -/

/-- What taking a packet does: it leaves its own port's queue, the other queue stays, the choice counter moves on. -/
theorem takePacket_inv {s t : State} {port : Port} {p : Packet} (h : takePacket s = some (port, p, t)) :
    (port = .rt ∧ ∃ rest, s.rtIn = p :: rest ∧ t = { s with rtIn := rest, arbCount := s.arbCount + 1 })
      ∨ (port = .ctl ∧ ∃ rest, s.ctlIn = p :: rest ∧ t = { s with ctlIn := rest, arbCount := s.arbCount + 1 }) := by
  unfold takePacket at h
  split at h
  · cases h
  · rename_i hr hc; cases h; exact .inl ⟨rfl, _, hr, rfl⟩
  · rename_i hr hc; cases h; exact .inr ⟨rfl, _, hc, rfl⟩
  · rename_i hr hc
    split at h
    · cases h; exact .inl ⟨rfl, _, hr, rfl⟩
    · cases h; exact .inr ⟨rfl, _, hc, rfl⟩

theorem takePacket_none {s : State} : takePacket s = none ↔ s.rtIn = [] ∧ s.ctlIn = [] := by
  unfold takePacket
  split <;> simp_all
  split <;> simp

/-- A packet that withFetchWord places is the one taken next. -/
theorem takePacket_placePacket_rt (p : Packet) (s : State) :
    takePacket (placePacket .rt p s)
      = some (.rt, p, { s with ctlIn := [], powerOnReq := false, arbCount := s.arbCount + 1 }) := rfl

theorem takePacket_placePacket_ctl (p : Packet) (s : State) :
    takePacket (placePacket .ctl p s)
      = some (.ctl, p, { s with rtIn := [], powerOnReq := false, arbCount := s.arbCount + 1 }) := rfl

/-! ### Capacity and status -/

/-- What ACTIVATE can obtain (R84). -/
theorem allocatable_bounds {p : Params} {sr : Word} {c : Nat} (h : allocatable p sr = some c) :
    1 ≤ c ∧ c ≤ p.storeDepth := by
  unfold allocatable at h
  split at h
  · cases h
  · split at h
    · cases h
    · cases h; omega

theorem Params.storeDepth_lt (p : Params) : p.storeDepth < 2 ^ 32 := by
  have := p.depthLess1.isLt; unfold Params.storeDepth; omega

/-- The STATUS view as a number (R98). -/
theorem statusView_toNat (s : State) :
    (statusView s).toNat
      = (match s.lc with | .uninit => 0 | .configured => 1 | .active => 2 | .destroyed => 3)
        + 2 ^ 2 * s.alloc.toNat + 2 ^ 3 * s.full.toNat + 2 ^ 4 * s.clip.toNat + 2 ^ 5 * s.faulted.toNat
        + 2 ^ 8 * s.fcode.toNat := by
  unfold statusView
  generalize s.fcode = f; generalize s.faulted = a; generalize s.clip = b; generalize s.full = c
  generalize s.alloc = d; generalize s.lc = e
  revert f; cases a <;> cases b <;> cases c <;> cases d <;> cases e <;> decide

theorem ringMod_eq {cap : Word} (hc : 0 < cap.toNat) (x : Nat) :
    ringMod cap (x : Int) = BitVec.ofNat 32 (x % cap.toNat) := by
  apply BitVec.eq_of_toNat_eq
  have h1 := Nat.mod_lt x hc
  have h2 := cap.isLt
  rw [ringMod_natCast_toNat hc, BitVec.toNat_ofNat, Nat.mod_eq_of_lt (a := x % cap.toNat) (by omega)]

end Sys2Proof.Machine
end

