-- ==== Sys2Proof/Laws/Exec.lean ====
section
/-! SUPPORT. What a command can do, said once: `exec_next` lists every next state of `exec`, and `push_inv`, `push_ok` those of PUSH.
Invariants and frames follow by cases, with no command unfolded again. -/

namespace Sys2Proof.Machine

/-- PUSH answers exactly when its slot access does, with this state (R70). -/
theorem push_inv {s t : State} {l r : Word} (h : push l r s = .ok t) :
    slotCheck s s.wcur.toNat = .ok () ∧
      t = { s with
        storeL := s.storeL.put s.wcur.toNat l
        storeR := s.storeR.put s.wcur.toNat r
        wcur := ringMod s.cap ((s.wcur.toNat : Int) + 1)
        rcur := rcurAfterPush s.full s.cap s.rcur
        full := fullAfterPush s.full (ringMod s.cap ((s.wcur.toNat : Int) + 1)) s.rcur
        clip := clipAfterPush s.clip s.full } := by
  unfold push at h
  split at h
  · cases h
  · rename_i u hu
    obtain ⟨hc, rfl⟩ := memWrite_inv hu
    cases h
    exact ⟨hc, rfl⟩

theorem push_ok {s : State} {l r : Word} (h : slotCheck s s.wcur.toNat = .ok ()) :
    push l r s = .ok { s with
        storeL := s.storeL.put s.wcur.toNat l
        storeR := s.storeR.put s.wcur.toNat r
        wcur := ringMod s.cap ((s.wcur.toNat : Int) + 1)
        rcur := rcurAfterPush s.full s.cap s.rcur
        full := fullAfterPush s.full (ringMod s.cap ((s.wcur.toNat : Int) + 1)) s.rcur
        clip := clipAfterPush s.clip s.full } := by
  simp only [push, memWrite, h]

/-- The effect of a command whose checks pass: `Effect i s u d` says that `i` in state `s` leaves `u` and answers OK with data `d`.
One constructor per command, two for FRAME. -/
inductive Effect : Instr → State → State → List Word → Prop where
  | setup {s : State} {d0 : Word} (hlc : s.lc = .uninit) :
      Effect (.setup d0) s { s with sr := d0, lc := .configured } []
  | activate {s : State} {c : Nat} (hlc : s.lc = .configured) (hc : allocatable s.params s.sr = some c) :
      Effect .activate s (activated c s) []
  | deactivate {s : State} (hlc : s.lc = .active) (hbr : s.br = 0#24) :
      Effect .deactivate s { s with lc := .configured } []
  | teardown {s : State} (hlc : s.lc = .configured) :
      Effect .teardown s { s with alloc := false, full := false, lc := .destroyed } []
  | reset {s : State} (hlc : s.lc = .configured ∨ s.lc = .active) (ha : s.alloc = true) (hbr : s.br = 0#24) :
      Effect .reset s (doReset s) []
  | drain {s : State} {m : Imm24} {out : List Word} (hlc : s.lc = .configured ∨ s.lc = .active)
      (ha : s.alloc = true) (hout : readFrames s 0 (drainCount m s) = .ok out) :
      Effect (.drain m) s
        { s with
          rcur := ringMod s.cap ((s.rcur.toNat : Int) + (drainCount m s : Int))
          full := fullAfterDrain s.full (drainCount m s) }
        (BitVec.ofNat 32 (drainCount m s) :: out)
  | rdreg {s : State} {idx : Imm24} {w : Word} (hw : view s idx.toNat = some w) : Effect (.rdreg idx) s s [w]
  | peek {s : State} {k : Imm24} (hlc : s.lc = .configured ∨ s.lc = .active)
      (hs : slotCheck s k.toNat = .ok ()) : Effect (.peek k) s s [s.slotL k.toNat, s.slotR k.toNat]
  | block {s : State} {n : Imm24} {fmt rec sav : Word} (hlc : s.lc = .active) (hbr : s.br = 0#24) :
      Effect (.block n fmt rec sav) s { s with ctlFmt := fmt, ctlRec := rec, ctlSave := sav, br := n } [clipWord s]
  | framePass {s : State} {l r : Word} (hlc : s.lc = .active) (hbr : s.br ≠ 0#24) (hrec : recording s = false) :
      Effect (.frame l r) s { s with br := s.br - 1#24 } [l, r, clipWord s]
  | framePush {s u : State} {l r : Word} (hlc : s.lc = .active) (hbr : s.br ≠ 0#24) (hrec : recording s = true)
      (hp : push l r s = .ok u) : Effect (.frame l r) s { u with br := u.br - 1#24 } [l, r, clipWord u]

/-- Every next state of `exec`: the command's fault, ERR_ALLOC of ACTIVATE, or the command's effect and its OK response. -/
theorem exec_next {i : Instr} {s t : State} (h : exec i s = .next t) :
    (∃ c, t = raiseFault i.port c s)
      ∨ (i = .activate ∧ s.lc = .configured ∧ allocatable s.params s.sr = none ∧ t = respond .ctl errAllocStatus [] s)
      ∨ (∃ u d, Effect i s u d ∧ t = respondOk i.port d u) := by
  cases i with
  | setup d0 =>
    rcases checked_cases .ctl _ s _ with ⟨c, -, hf⟩ | ⟨hn, hb⟩
    · exact .inl ⟨c, (Host.Outcome.next.inj ((hf.symm.trans h))).symm⟩
    · cases hb.symm.trans h
      exact .inr (.inr ⟨_, _, .setup (by simpa using hn), rfl⟩)
  | activate =>
    rcases checked_cases .ctl _ s _ with ⟨c, -, hf⟩ | ⟨hn, hb⟩
    · exact .inl ⟨c, (Host.Outcome.next.inj ((hf.symm.trans h))).symm⟩
    · have h' := hb.symm.trans h
      have hlc : s.lc = .configured := by simpa using hn
      cases ha : allocatable s.params s.sr with
      | none => rw [ha] at h'; cases h'; exact .inr (.inl ⟨rfl, hlc, rfl, rfl⟩)
      | some c => rw [ha] at h'; cases h'; exact .inr (.inr ⟨_, _, .activate hlc ha, rfl⟩)
  | deactivate =>
    rcases checked_cases .ctl _ s _ with ⟨c, -, hf⟩ | ⟨hn, hb⟩
    · exact .inl ⟨c, (Host.Outcome.next.inj ((hf.symm.trans h))).symm⟩
    · cases hb.symm.trans h
      obtain ⟨h1, h2⟩ : s.lc = .active ∧ inBlock s = false := by simpa [deactivateChecks] using hn
      exact .inr (.inr ⟨_, _, .deactivate h1 (by simpa using h2), rfl⟩)
  | teardown =>
    rcases checked_cases .ctl _ s _ with ⟨c, -, hf⟩ | ⟨hn, hb⟩
    · exact .inl ⟨c, (Host.Outcome.next.inj ((hf.symm.trans h))).symm⟩
    · cases hb.symm.trans h
      exact .inr (.inr ⟨_, _, .teardown (by simpa using hn), rfl⟩)
  | reset =>
    rcases checked_cases .ctl _ s _ with ⟨c, -, hf⟩ | ⟨hn, hb⟩
    · exact .inl ⟨c, (Host.Outcome.next.inj ((hf.symm.trans h))).symm⟩
    · cases hb.symm.trans h
      obtain ⟨h1, h2, h3⟩ : notInService s = false ∧ s.alloc = true ∧ inBlock s = false := by
        simpa [resetChecks] using hn
      exact .inr (.inr ⟨_, _, .reset (by simpa using h1) h2 (by simpa using h3), rfl⟩)
  | drain m =>
    rcases checked_cases .ctl _ s _ with ⟨c, -, hf⟩ | ⟨hn, hb⟩
    · exact .inl ⟨c, (Host.Outcome.next.inj ((hf.symm.trans h))).symm⟩
    · have h' := hb.symm.trans h
      obtain ⟨h1, h2⟩ : notInService s = false ∧ s.alloc = true := by simpa [drainChecks] using hn
      cases hr : readFrames s 0 (drainCount m s) with
      | error e => rw [hr] at h'; cases h'
      | ok out => rw [hr] at h'; cases h'; exact .inr (.inr ⟨_, _, .drain (by simpa using h1) h2 hr, rfl⟩)
  | rdreg idx =>
    simp only [exec, execRdreg] at h
    cases hv : view s idx.toNat with
    | none => rw [hv] at h; cases h; exact .inl ⟨_, rfl⟩
    | some w => rw [hv] at h; cases h; exact .inr (.inr ⟨_, _, .rdreg hv, rfl⟩)
  | peek k =>
    rcases checked_cases .ctl _ s _ with ⟨c, -, hf⟩ | ⟨hn, hb⟩
    · exact .inl ⟨c, (Host.Outcome.next.inj ((hf.symm.trans h))).symm⟩
    · have h' := hb.symm.trans h
      obtain ⟨h1, -, -⟩ : notInService s = false ∧ s.alloc = true ∧ k.toNat < s.cap.toNat := by
        simpa [peekChecks] using hn
      unfold memRead at h'
      cases hr : slotCheck s k.toNat with
      | error e => rw [hr] at h'; cases h'
      | ok x => rw [hr] at h'; cases h'; exact .inr (.inr ⟨_, _, .peek (by simpa using h1) hr, rfl⟩)
  | block n fmt rec sav =>
    rcases checked_cases .rt _ s _ with ⟨c, -, hf⟩ | ⟨hn, hb⟩
    · exact .inl ⟨c, (Host.Outcome.next.inj ((hf.symm.trans h))).symm⟩
    · cases hb.symm.trans h
      obtain ⟨h1, h2⟩ : s.lc = .active ∧ inBlock s = false := by simpa [blockChecks] using hn
      exact .inr (.inr ⟨_, _, .block h1 (by simpa using h2), rfl⟩)
  | frame l r =>
    rcases checked_cases .rt _ s _ with ⟨c, -, hf⟩ | ⟨hn, hb⟩
    · exact .inl ⟨c, (Host.Outcome.next.inj ((hf.symm.trans h))).symm⟩
    · have h' := hb.symm.trans h
      obtain ⟨h1, h2⟩ : s.lc = .active ∧ inBlock s = true := by simpa [frameChecks] using hn
      have h2 : s.br ≠ 0#24 := by simpa using h2
      cases hrec : recording s with
      | false =>
        rw [hrec] at h'
        cases h'
        exact .inr (.inr ⟨_, _, .framePass h1 h2 hrec, rfl⟩)
      | true =>
        rw [hrec] at h'
        cases hp : push l r s with
        | error e => rw [hp] at h'; cases h'
        | ok u =>
          rw [hp] at h'
          cases h'
          exact .inr (.inr ⟨_, _, .framePush h1 h2 hrec hp, rfl⟩)

/-- A command answers on its own port: the other port's responses stay as they were (R57). -/
theorem exec_out_other {s t : State} {i : Instr} (h : exec i s = .next t) {port : Port} (hp : port ≠ i.port) :
    t.out port = s.out port := by
  have base : ∀ (u : State) d st, u.rtOut = s.rtOut → u.ctlOut = s.ctlOut → t = respond i.port st d u →
      t.out port = s.out port := by
    rintro u d st e1 e2 rfl
    revert hp
    cases i.port <;> cases port <;> simp [respond, State.out, e1, e2]
  rcases exec_next h with ⟨c, rfl⟩ | ⟨rfl, -, -, rfl⟩ | ⟨u, d, he, rfl⟩
  · exact base _ _ _ (by rfl) (by rfl) rfl
  · exact base s [] errAllocStatus rfl rfl rfl
  · cases he with
    | framePush _ _ _ hpu => obtain ⟨-, rfl⟩ := push_inv hpu; exact base _ _ _ (by rfl) (by rfl) rfl
    | _ => exact base _ _ _ (by rfl) (by rfl) rfl

/-! ### Runs of commands -/

theorem execAll_cons {i : Instr} {s t : State} (h : exec i s = .next t) (cs : List Instr) :
    execAll (i :: cs) s = execAll cs t := by simp only [execAll, h]

@[simp] theorem recordedBy_nil (s : State) : recordedBy [] s = [] := rfl

theorem recordedBy_cons {i : Instr} {s t : State} (h : exec i s = .next t) (cs : List Instr) :
    recordedBy (i :: cs) s = recordedNow s i ++ recordedBy cs t := by simp only [recordedBy, h]

/-- Every next state of `step`: power-on reset, idle, the decoder's fault, or the decoded command executed on the state without its packet. -/
theorem step_next {s t : State} (h : step s = .next t) :
    (s.powerOnReq = true ∧ t = powerOn s)
      ∨ (s.powerOnReq = false ∧ takePacket s = none ∧ t = s)
      ∨ (∃ port p u, s.powerOnReq = false ∧ takePacket s = some (port, p, u) ∧
          ((∃ e, decode port p = .error e ∧ t = raiseFault port (rejectCode e) u)
            ∨ (∃ i, decode port p = .ok i ∧ exec i u = .next t))) := by
  unfold step at h
  split at h
  · rename_i hp; cases h; exact .inl ⟨hp, rfl⟩
  · rename_i hp
    have hp : s.powerOnReq = false := by simpa using hp
    split at h
    · rename_i hn; cases h; exact .inr (.inl ⟨hp, hn, rfl⟩)
    · rename_i port p u hs
      refine .inr (.inr ⟨port, p, u, hp, hs, ?_⟩)
      unfold transact at h
      split at h
      · rename_i e he; cases h; exact .inl ⟨e, he, rfl⟩
      · rename_i i hi; exact .inr ⟨i, hi, h⟩

end Sys2Proof.Machine
end

