-- ==== Sys2Proof/Laws/PerInstr.lean ====
section
/-! SUPPORT. The family EncodedFields: of every command, that its packet holds its opcode, RSV = 0, its operand and its data words where the
decoder reads them (spec/30_encoding.md R52, R53, R56). One lemma per constructor of Instr. -/

namespace Sys2Proof.Laws.EncodedFields

/-- The packet of `i` has `i`'s opcode, RSV = 0, IMM24 = 0 where unused, and the opcode's data-word count. -/
def Statement (i : Instr) : Prop :=
  opField (encode i).word = i.opcode.field ∧ rsvField (encode i).word = 0#4 ∧ immField (encode i).word = i.imm
    ∧ (i.opcode.usesImm = false → i.imm = 0#24) ∧ (encode i).data.length = i.opcode.dataWords

/-- The three fields are the encoder's for every command; what is left is the operand's rule and the data-word count. -/
theorem of_shape {i : Instr} (himm : i.opcode.usesImm = false → i.imm = 0#24)
    (hdata : (encode i).data.length = i.opcode.dataWords) : Statement i :=
  ⟨by simp [encode], by simp [encode], by simp [encode], himm, hdata⟩

theorem setup (sampleRate : Word) : Statement (.setup sampleRate) := of_shape (fun _ => rfl) rfl
theorem activate : Statement .activate := of_shape (fun _ => rfl) rfl
theorem deactivate : Statement .deactivate := of_shape (fun _ => rfl) rfl
theorem teardown : Statement .teardown := of_shape (fun _ => rfl) rfl
theorem reset : Statement .reset := of_shape (fun _ => rfl) rfl
theorem drain (maxCount : Imm24) : Statement (.drain maxCount) := of_shape (fun h => Bool.noConfusion h) rfl
theorem rdreg (index : Imm24) : Statement (.rdreg index) := of_shape (fun h => Bool.noConfusion h) rfl
theorem peek (slot : Imm24) : Statement (.peek slot) := of_shape (fun h => Bool.noConfusion h) rfl
theorem block (frames : Imm24) (format record save : Word) : Statement (.block frames format record save) := of_shape (fun h => Bool.noConfusion h) rfl
theorem frame (left right : Word) : Statement (.frame left right) := of_shape (fun _ => rfl) rfl

end Sys2Proof.Laws.EncodedFields
end

