-- ==== Sys2Proof/Laws/Ring.lean ====
section
/-! SUPPORT. The ring as the commands see it while R33 holds: PUSH, the reads of DRAIN and PEEK, and the slots they name. -/

namespace Sys2Proof.Machine

/-- While R33 holds, PUSH in an allocated ring is not stopped. -/
theorem State.RegInv.wcurSlot {s : State} (h : s.RegInv) (ha : s.alloc = true) :
    slotCheck s s.wcur.toNat = .ok () := by
  obtain ⟨_, h2, h3, _⟩ := h.ring ha
  exact slotCheck_ok ha h3 (by omega)

/-- The frame of the j-th unread slot. -/
def frameAt (s : State) (j : Nat) : Word × Word := (s.slotL (unreadSlot s j), s.slotR (unreadSlot s j))

theorem unread_eq (s : State) : unread s = (List.range (count s).toNat).map (frameAt s) := rfl

@[simp] theorem unread_length (s : State) : (unread s).length = (count s).toNat := by simp [unread]

theorem frameWords_cons (f : Word × Word) (fs : List (Word × Word)) :
    frameWords (f :: fs) = f.1 :: f.2 :: frameWords fs := rfl

/-- The reads of DRAIN while R33 holds: the frames from the j-th unread slot on (R73). -/
theorem readFrames_ok {s : State} (ha : s.alloc = true) (hc : 0 < s.cap.toNat)
    (hd : s.cap.toNat ≤ s.params.storeDepth) (k j : Nat) :
    readFrames s j k = .ok (frameWords ((List.range k).map fun i => frameAt s (j + i))) := by
  induction k generalizing j with
  | zero => rfl
  | succ k ih =>
    have hlt : unreadSlot s j < s.cap.toNat := by rw [unreadSlot_eq hc]; exact Nat.mod_lt _ hc
    simp only [readFrames, memRead_ok ha hlt (by omega), ih (j + 1), List.range_succ_eq_map, List.map_cons,
      List.map_map, frameWords_cons, Nat.add_zero]
    congr 3
    congr 2
    funext i
    simp only [Function.comp, frameAt, Nat.add_assoc, Nat.add_comm 1 i]

/-- The frames DRAIN m returns while R33 holds: the first min(m, COUNT) unread ones. -/
theorem readFrames_unread {s : State} (h : s.RegInv) (ha : s.alloc = true) (m : Nat) :
    readFrames s 0 (min m (count s).toNat) = .ok (frameWords ((unread s).take m)) := by
  obtain ⟨h1, h2, -, -⟩ := h.ring ha
  rw [readFrames_ok ha (by omega) h2, unread_eq, ← List.map_take, List.take_range]
  simp

/-- The slot after the j-th unread one. -/
theorem succ_mod_succ (r j c : Nat) : ((r + 1) % c + j) % c = (r + (j + 1)) % c := by
  rw [Nat.mod_add_mod]; congr 1; omega

end Sys2Proof.Machine
end

