-- ==== Sys2Proof/Laws/Queue.lean ====
section
/-! SUPPORT. The queue view of the ring (spec/41_ring_buffer_store.md R76):
what PUSH and the state DRAIN leaves do to the list of unread frames. -/

namespace Sys2Proof.Machine

/-- The frame of the j-th unread slot, in natural arithmetic. -/
theorem frameAt_eq {s : State} (hc : 0 < s.cap.toNat) (j : Nat) :
    frameAt s j
      = (s.slotL ((s.rcur.toNat + j) % s.cap.toNat),
        s.slotR ((s.rcur.toNat + j) % s.cap.toNat)) := by
  simp only [frameAt, unreadSlot_eq hc]

/-- Two views of the unread frames are equal when they are so slot by slot. -/
theorem unread_ext {s : State} {U : List (Word × Word)} (h : U.length = (count s).toNat)
    (h2 : ∀ j, (hj : j < U.length) → frameAt s j = U[j]) : unread s = U := by
  apply List.ext_getElem
  · simp [h]
  · intro i h3 h4; simp only [unread_eq, List.getElem_map, List.getElem_range]; exact h2 i h4

theorem unread_getElem {s : State} {j : Nat} (h : j < (unread s).length) : (unread s)[j] = frameAt s j := by
  simp [unread_eq]

/-- While R33 holds the write cursor stands COUNT slots past the read cursor (R27). -/
theorem wcur_eq {s : State} (hs : s.RegInv) (ha : s.alloc = true) :
    s.wcur.toNat = (s.rcur.toNat + (count s).toNat) % s.cap.toNat := by
  obtain ⟨h1, h2, h3, h4⟩ := hs.ring ha
  cases hf : s.full with
  | true =>
    rw [count_full ha hf, Nat.add_mod_right, Nat.mod_eq_of_lt h4, (hs.full hf).2]
  | false =>
    rcases count_cases ha hf h3 h4 with ⟨h5, h6⟩ | ⟨h5, h6⟩
    · rw [h6, Nat.mod_eq_of_lt (by omega)]; omega
    · rw [h6, show s.rcur.toNat + (s.wcur.toNat + s.cap.toNat - s.rcur.toNat) = s.wcur.toNat + s.cap.toNat by omega,
        Nat.add_mod_right, Nat.mod_eq_of_lt h3]

/-- While R33 holds and FULL = 0 the ring has room (R24). -/
theorem count_lt {s : State} (hs : s.RegInv) (ha : s.alloc = true) (hf : s.full = false) :
    (count s).toNat < s.cap.toNat := by
  obtain ⟨h1, h2, h3, h4⟩ := hs.ring ha
  rcases count_cases ha hf h3 h4 with ⟨h5, h6⟩ | ⟨h5, h6⟩ <;> omega

/-- While R33 holds FULL = 0 says the ring has room (R24). -/
theorem full_iff {s : State} (hs : s.RegInv) (ha : s.alloc = true) :
    (unread s).length < s.cap.toNat ↔ s.full = false := by
  rw [unread_length]
  constructor
  · intro h; by_contra hf
    rw [count_full ha (by simpa using hf)] at h; omega
  · exact count_lt hs ha

/-- Two slots less than a whole ring apart are different slots. -/
theorem mod_ne {r c i j : Nat} (hj : j < c) (hi : i < j) : (r + i) % c ≠ (r + j) % c := by
  intro h
  have h1 := Nat.div_add_mod (r+i) c
  have h2 := Nat.div_add_mod (r+j) c
  rw [h] at h1
  have : c * ((r+j)/c) = c * ((r+i)/c) + (j - i) := by omega
  have : c ∣ (j - i) := by
    refine ⟨(r+j)/c - (r+i)/c, ?_⟩
    rw [Nat.mul_sub]; omega
  have := Nat.le_of_dvd (by omega) this
  omega

/-- A cursor moved on by one either goes up or wraps to 0. -/
theorem mod_succ_cases (w c : Nat) (h : w < c) : ((w+1) % c = w + 1 ∧ w + 1 < c) ∨ ((w+1)%c = 0 ∧ w + 1 = c) := by
  rcases Nat.lt_or_ge (w+1) c with h1 | h1
  · exact .inl ⟨Nat.mod_eq_of_lt h1, h1⟩
  · have : w + 1 = c := by omega
    exact .inr ⟨by rw [this, Nat.mod_self], this⟩

/-- PUSH in the queue view, while R33 holds (R70, R72). -/
theorem unread_push {s u : State} {l r : Word} (hs : s.RegInv) (ha : s.alloc = true) (hp : push l r s = .ok u) :
    (s.full = false →
        unread u = unread s ++ [(l, r)] ∧ u.clip = s.clip ∧ (count u).toNat = (count s).toNat + 1)
      ∧ (s.full = true →
        unread u = (unread s).tail ++ [(l, r)] ∧ u.clip = true ∧ u.full = true ∧ (count u).toNat = s.cap.toNat) := by
  obtain ⟨hsl, hu⟩ := push_inv hp
  obtain ⟨h1, h2, h3, h4⟩ := hs.ring ha
  have hcap : u.cap = s.cap := by rw [hu]
  have hal : u.alloc = true := by rw [hu]; exact ha
  have hw : u.wcur.toNat = (s.wcur.toNat + 1) % s.cap.toNat := by rw [hu]; exact ringMod_succ_toNat h1 _
  have hslot : ∀ a, u.slotL a = (if a = s.wcur.toNat then l else s.slotL a) ∧ u.slotR a = (if a = s.wcur.toNat then r else s.slotR a) := by
    intro a; rw [hu]; simp only [State.slotL, State.slotR, find_put]; constructor <;> split <;> rfl
  have hwc := wcur_eq hs ha
  refine ⟨fun hf => ?_, fun hf => ?_⟩
  · have hr : u.rcur = s.rcur := by rw [hu]; simp [rcurAfterPush, hf]
    have hcl : u.clip = s.clip := by rw [hu]; simp [clipAfterPush, hf]
    have hfu : u.full = decide (u.wcur = s.rcur) := by rw [hu]; simp [fullAfterPush, hf]
    have hlt := count_lt hs ha hf
    have hcnt : (count u).toNat = (count s).toNat + 1 := by
      rcases Bool.eq_false_or_eq_true u.full with hfu' | hfu'
      · rw [count_full hal hfu', hcap]
        have : u.wcur = s.rcur := by simpa [hfu'] using hfu
        have hw' : s.rcur.toNat = (s.wcur.toNat + 1) % s.cap.toNat := by rw [← hw, this]
        rcases count_cases ha hf h3 h4 with ⟨h5, h6⟩ | ⟨h5, h6⟩ <;> rcases mod_succ_cases _ _ h3 with ⟨h7, h8⟩ | ⟨h7, h8⟩ <;> omega
      · have hne : u.wcur.toNat ≠ s.rcur.toNat := by
          intro h; have := BitVec.eq_of_toNat_eq h; simp [this, hfu'] at hfu
        have hwl : u.wcur.toNat < u.cap.toNat := by rw [hw, hcap]; exact Nat.mod_lt _ h1
        rcases count_cases hal hfu' hwl (by rw [hr, hcap]; exact h4) with ⟨h5, h6⟩ | ⟨h5, h6⟩ <;>
          rw [hr] at h5 h6 <;> rw [h6] <;>
          rcases count_cases ha hf h3 h4 with ⟨h7, h8⟩ | ⟨h7, h8⟩ <;>
          rcases mod_succ_cases _ _ h3 with ⟨h9, h10⟩ | ⟨h9, h10⟩ <;>
          (try rw [hcap]) <;> omega
    refine ⟨unread_ext (by simp [hcnt]) ?_, hcl, hcnt⟩
    intro j hj
    simp only [List.length_append, unread_length, List.length_singleton] at hj
    rw [frameAt_eq (by rw [hcap]; exact h1), hcap, hr, (hslot _).1, (hslot _).2]
    by_cases hjl : j < (count s).toNat
    · have := mod_ne (r := s.rcur.toNat) hlt hjl
      rw [← hwc] at this
      rw [if_neg this, if_neg this, List.getElem_append_left (by simpa using hjl), unread_getElem, frameAt_eq h1]
    · have hje : j = (count s).toNat := by omega
      have hsl2 : (s.rcur.toNat + j) % s.cap.toNat = s.wcur.toNat := by rw [hje]; exact hwc.symm
      rw [if_pos hsl2, if_pos hsl2, List.getElem_append_right (by simp; omega)]
      simp
  · obtain ⟨-, hwr⟩ := hs.full hf
    have hr : u.rcur.toNat = (s.rcur.toNat + 1) % s.cap.toNat := by rw [hu]; simp [rcurAfterPush, hf, ringMod_succ_toNat h1]
    have hfu : u.full = true := by rw [hu]; simp [fullAfterPush, hf]
    have hcnt : (count u).toNat = s.cap.toNat := by rw [count_full hal hfu, hcap]
    have hcs : (count s).toNat = s.cap.toNat := by rw [count_full ha hf]
    refine ⟨unread_ext (by simp [hcnt, hcs]; omega) ?_, by rw [hu]; simp [clipAfterPush, hf], hfu, hcnt⟩
    intro j hj
    simp only [List.length_append, List.length_tail, unread_length, List.length_singleton, hcs] at hj
    rw [frameAt_eq (by rw [hcap]; exact h1), hcap, hr, (hslot _).1, (hslot _).2, succ_mod_succ]
    have hwr' : s.wcur.toNat = s.rcur.toNat := by rw [hwr]
    have h0 : s.wcur.toNat = (s.rcur.toNat + 0) % s.cap.toNat := by rw [Nat.add_zero, Nat.mod_eq_of_lt h4]; exact hwr'
    by_cases hjl : j + 1 < s.cap.toNat
    · have := mod_ne (r := s.rcur.toNat) hjl (Nat.succ_pos j)
      have : (s.rcur.toNat + (j + 1)) % s.cap.toNat ≠ s.wcur.toNat := by rw [h0]; exact Ne.symm this
      rw [if_neg this, if_neg this, List.getElem_append_left (by simp [hcs]; omega), List.getElem_tail, unread_getElem, frameAt_eq h1]
    · have hje : j + 1 = s.cap.toNat := by omega
      have : (s.rcur.toNat + (j + 1)) % s.cap.toNat = s.wcur.toNat := by rw [hje, Nat.add_mod_right, Nat.mod_eq_of_lt h4]; exact hwr'.symm
      rw [if_pos this, if_pos this, List.getElem_append_right (by simp [hcs]; omega)]
      simp

/-- DRAIN in the queue view, while R33 holds (R73). -/
theorem drain_state {s : State} (hs : s.RegInv) (ha : s.alloc = true) (m : Nat) (out : List Word) :
    unread (drained (min m (count s).toNat) out s) = (unread s).drop m
      ∧ (count (drained (min m (count s).toNat) out s)).toNat = (count s).toNat - m := by
  obtain ⟨h1, h2, h3, h4⟩ := hs.ring ha
  generalize hk : min m (count s).toNat = k
  generalize ht : drained k out s = t
  have hcap : t.cap = s.cap := by rw [← ht]; rfl
  have hal : t.alloc = true := by rw [← ht]; exact ha
  have hw : t.wcur = s.wcur := by rw [← ht]; rfl
  have hr : t.rcur.toNat = (s.rcur.toNat + k) % s.cap.toNat := by
    rw [← ht]
    have := ringMod_natCast_toNat h1 (s.rcur.toNat + k)
    simpa [drained] using this
  have hf : t.full = fullAfterDrain s.full k := by rw [← ht]; rfl
  have hL : ∀ a, t.slotL a = s.slotL a ∧ t.slotR a = s.slotR a := by intro a; rw [← ht]; exact ⟨rfl, rfl⟩
  have hcle := count_le ha h1
  have hwc := wcur_eq hs ha
  have hcnt : (count t).toNat = (count s).toNat - k := by
    rcases Nat.eq_zero_or_pos k with rfl | hkp
    · have e1 : t.rcur = s.rcur := BitVec.eq_of_toNat_eq (by rw [hr, Nat.add_zero, Nat.mod_eq_of_lt h4])
      have e2 : t.full = s.full := by rw [hf]; rfl
      simp only [count, hal, ha, e1, e2, hcap, hw, Nat.sub_zero]
    · have e2 : t.full = false := by rw [hf]; simp [fullAfterDrain, hkp]
      have hrl : t.rcur.toNat < t.cap.toNat := by rw [hr, hcap]; exact Nat.mod_lt _ h1
      have hkc : k ≤ (count s).toNat := by omega
      have hrr : (s.rcur.toNat + k < s.cap.toNat ∧ t.rcur.toNat = s.rcur.toNat + k) ∨
          (s.cap.toNat ≤ s.rcur.toNat + k ∧ t.rcur.toNat = s.rcur.toNat + k - s.cap.toNat) := by
        rcases Nat.lt_or_ge (s.rcur.toNat + k) s.cap.toNat with h | h
        · exact .inl ⟨h, by rw [hr, Nat.mod_eq_of_lt h]⟩
        · exact .inr ⟨h, by rw [hr, Nat.mod_eq_sub_mod h, Nat.mod_eq_of_lt (by omega)]⟩
      have hww : (s.rcur.toNat + (count s).toNat < s.cap.toNat ∧ s.wcur.toNat = s.rcur.toNat + (count s).toNat) ∨
          (s.cap.toNat ≤ s.rcur.toNat + (count s).toNat ∧ s.wcur.toNat = s.rcur.toNat + (count s).toNat - s.cap.toNat) := by
        rcases Nat.lt_or_ge (s.rcur.toNat + (count s).toNat) s.cap.toNat with h | h
        · exact .inl ⟨h, by rw [hwc, Nat.mod_eq_of_lt h]⟩
        · exact .inr ⟨h, by rw [hwc, Nat.mod_eq_sub_mod h, Nat.mod_eq_of_lt (by omega)]⟩
      rcases count_cases hal e2 (by rw [hw, hcap]; exact h3) hrl with ⟨h5, h6⟩ | ⟨h5, h6⟩ <;>
        rw [hw] at h5 h6 <;> (try rw [hcap] at h6) <;> omega
  refine ⟨unread_ext (by rw [hcnt, List.length_drop, unread_length]; omega) ?_, by omega⟩
  intro j hj
  simp only [List.length_drop, unread_length] at hj
  rw [frameAt_eq (by rw [hcap]; exact h1), hcap, hr, (hL _).1, (hL _).2, List.getElem_drop, unread_getElem, frameAt_eq h1, Nat.mod_add_mod]
  have : k = m := by omega
  rw [this, Nat.add_assoc]

/-- The queue view reads the ring's registers and the store, and nothing else. -/
theorem unread_congr {s t : State} (h1 : t.alloc = s.alloc) (h2 : t.full = s.full) (h3 : t.cap = s.cap)
    (h4 : t.wcur = s.wcur) (h5 : t.rcur = s.rcur) (h6 : t.storeL = s.storeL) (h7 : t.storeR = s.storeR)
    (h8 : t.epoch = s.epoch) :
    unread t = unread s ∧ count t = count s := by
  simp only [unread, count, unreadSlot, State.slotL, State.slotR, h1, h2, h3, h4, h5, h6, h7, h8, and_self]

/-- The ring is as it was: the same unread frames, cursors and CLIP. -/
def SameRing (s t : State) : Prop :=
  unread t = unread s ∧ t.wcur = s.wcur ∧ t.rcur = s.rcur ∧ t.clip = s.clip

/-- One recorded frame more in the ring (R70, R72). -/
def Appended (f : Word × Word) (s t : State) : Prop :=
  (s.full = false → unread t = unread s ++ [f] ∧ t.rcur = s.rcur ∧ t.clip = s.clip)
    ∧ (s.full = true → unread t = (unread s).tail ++ [f] ∧ t.clip = true)
    ∧ t.wcur.toNat = (s.wcur.toNat + 1) % s.cap.toNat

/-- A FRAME that records, while R33 holds, appends its pair (R89, R70). -/
theorem frame_appended {s t : State} {l r : Word} (hs : s.RegInv) (hlc : s.lc = .active) (hbr : s.br ≠ 0#24)
    (hrec : recording s = true) (h : exec (.frame l r) s = .next t) :
    t.alloc = true ∧ t.cap = s.cap ∧ Appended (l, r) s t := by
  have ha := hs.active hlc
  have hp := push_ok (l := l) (r := r) (hs.wcurSlot ha)
  have he : exec (.frame l r) s = _ := checked_none (by simp [frameChecks, hlc, hbr])
  rw [hrec, hp] at he
  cases he.symm.trans h
  obtain ⟨h1, h2⟩ := unread_push hs ha hp
  refine ⟨ha, rfl, fun hf => ⟨(h1 hf).1, ?_, (h1 hf).2.1⟩, fun hf => ⟨(h2 hf).1, (h2 hf).2.1⟩,
    ringMod_succ_toNat (hs.ring ha).1 _⟩
  simp [finishFrame, rcurAfterPush, hf]

/-- What a command that is none of ACTIVATE, RESET, TEARDOWN and DRAIN does to an allocated ring, while R33 holds: it records its frame, or it
leaves the ring as it was. -/
theorem exec_onlyPushes {s t : State} {i : Instr} (hs : s.RegInv) (ha : s.alloc = true) (hi : OnlyPushes i)
    (h : exec i s = .next t) :
    t.alloc = true ∧ t.cap = s.cap
      ∧ ((recordedNow s i = [] ∧ SameRing s t) ∨ ∃ f, recordedNow s i = [f] ∧ Appended f s t) := by
  by_cases hr : ∃ l r, i = .frame l r ∧ s.lc = .active ∧ s.br ≠ 0#24 ∧ recording s = true
  · obtain ⟨l, r, rfl, h1, h2, h3⟩ := hr
    obtain ⟨e1, e2, e3⟩ := frame_appended hs h1 h2 h3 h
    exact ⟨e1, e2, .inr ⟨(l, r), by simp [recordedNow, h1, h2, h3], e3⟩⟩
  · have hnil : recordedNow s i = [] := by
      cases i with
      | frame l r => exact if_neg fun hc => hr ⟨l, r, rfl, hc⟩
      | _ => rfl
    obtain ⟨o1, o2, o3, o4⟩ := hi
    have same : ∀ u : State, u.alloc = s.alloc → u.full = s.full → u.cap = s.cap → u.wcur = s.wcur → u.rcur = s.rcur →
        u.storeL = s.storeL → u.storeR = s.storeR → u.epoch = s.epoch → u.clip = s.clip →
        u.alloc = true ∧ u.cap = s.cap
          ∧ ((recordedNow s i = [] ∧ SameRing s u) ∨ ∃ f, recordedNow s i = [f] ∧ Appended f s u) :=
      fun u a1 a2 a3 a4 a5 a6 a7 a8 a9 =>
        ⟨a1.trans ha, a3, .inl ⟨hnil, (unread_congr a1 a2 a3 a4 a5 a6 a7 a8).1, a4, a5, a9⟩⟩
    rcases exec_next h with ⟨c, rfl⟩ | ⟨h1, -, -, rfl⟩ | ⟨u, d, he, rfl⟩
    · exact same _ (by rfl) (by rfl) (by rfl) (by rfl) (by rfl) (by rfl) (by rfl) (by rfl) (by rfl)
    · exact absurd h1 o1
    · cases he with
      | activate => exact absurd rfl o1
      | reset => exact absurd rfl o2
      | teardown => exact absurd rfl o3
      | drain => exact absurd rfl (o4 _)
      | framePush h1 h2 h3 => exact absurd ⟨_, _, rfl, h1, h2, h3⟩ hr
      | _ => exact same _ (by rfl) (by rfl) (by rfl) (by rfl) (by rfl) (by rfl) (by rfl) (by rfl) (by rfl)

end Sys2Proof.Machine
end

