-- ==== Sys2Proof/Machine/Asm.lean ====
section
/-! DEFINITION. The assembler's line form of a command and of a response (spec/30_encoding.md R63).
Words are written as raw `0x` words, which R63 admits for every operand (log entry 15). -/

namespace Sys2Proof.Machine

/-- `<port>` of a line (R63). -/
def portText : Port → String
  | .rt => "rt"
  | .ctl => "ctl"

/-- One hexadecimal digit. -/
def hexDigit (n : Nat) : Char := "0123456789ABCDEF".toList.getD n '0'

/-- A word as `0x` and eight hexadecimal digits (R10, R63). -/
def wordText (w : Word) : String :=
  "0x" ++ String.ofList ([7, 6, 5, 4, 3, 2, 1, 0].map fun k => hexDigit (w.toNat / 16 ^ k % 16))

/-- A `<u24>` operand, in decimal (R63). -/
def immText (m : Imm24) : String := toString m.toNat

/-- The line of a command: its port, mnemonic and operands separated by commas (R63). -/
def instrLine (i : Instr) : String :=
  portText i.port ++ ": " ++
    match i with
    | .setup sr            => "SETUP " ++ wordText sr
    | .activate            => "ACTIVATE"
    | .deactivate          => "DEACTIVATE"
    | .teardown            => "TEARDOWN"
    | .reset               => "RESET"
    | .drain m             => "DRAIN " ++ immText m
    | .rdreg idx           => "RDREG " ++ immText idx
    | .peek k              => "PEEK " ++ immText k
    | .block n fmt rec sav => "BLOCK " ++ immText n ++ ", " ++ wordText fmt ++ ", " ++ wordText rec ++ ", " ++ wordText sav
    | .frame l r           => "FRAME " ++ wordText l ++ ", " ++ wordText r

/-- The name of a fault code in RCODE (R102), empty for a code that is never raised. -/
def rcodeText (n : Nat) : String :=
  match n with
  | 1 => "ILLEGAL_CMD"
  | 2 => "WRONG_PORT"
  | 3 => "LIFECYCLE"
  | 4 => "NO_STORAGE"
  | 5 => "IN_BLOCK"
  | 6 => "NO_BLOCK"
  | 7 => "BAD_INDEX"
  | _ => ""

/-- `<STATUS>[(<RCODE name>)]` of a response (R57, R63). -/
def statusText (status : Word) : String :=
  match status.toNat % 4 with
  | 0 => "OK"
  | 1 => "ERR_ALLOC"
  | _ => "FAULT(" ++ rcodeText (status.toNat / 16 % 16) ++ ")"

/-- The line of a response (R63). -/
def responseLine (r : Response) : String :=
  "-> " ++ statusText r.status ++ " " ++ ", ".intercalate (r.data.map wordText)

end Sys2Proof.Machine
end

