-- ==== Sys2Proof/Tests/Slice0.lean ====
section
/-! SUPPORT. Small tests and the witnesses of the statements' hypotheses. Expected results are those of spec/95_test_vectors.md,
spec/30_encoding.md R65, R66 and the examples in the rules. `MAX_DURATION_S` = 1, `STORE_DEPTH` = 16, `RECORD_ACTIVE` = 1 unless said
otherwise, as there. -/

namespace Sys2Proof.Tests

open Sys2Proof Sys2Proof.Machine

/-! ### The states of the tests -/

/-- The state an outcome leads to, if it is a next state. -/
def after : Host.Outcome State Fault Refusal → Option State
  | .next t => some t
  | .fault _ => none
  | .refused _ => none

/-- The status of the last response on a port. -/
def lastStatus (port : Port) (o : Host.Outcome State Fault Refusal) : Option Nat :=
  (after o).bind fun t => (t.out port).getLast?.map fun r => r.status.toNat

/-- The last response on a port. -/
def lastOn (port : Port) (o : Host.Outcome State Fault Refusal) : Option Response :=
  (after o).bind fun t => (t.out port).getLast?

/-- The parameters of the test vectors. -/
def vectorParams : Params := ⟨0, 0, 15, 1#32⟩

/-- Power-on, with the vectors' parameters. -/
def uninit : State := { State.reset with params := vectorParams }

/-- After SETUP with a sample rate. -/
def setUp (sr : Word) : State := { uninit with lc := .configured, sr := sr }

/-- Just after ACTIVATE with SR = 4.0: CAP = 4, store zero. -/
def active4 : State :=
  { setUp 0x40800000#32 with
    lc := .active, alloc := true, cap := 4#32
    storeL := [(0, 0#32), (1, 0#32), (2, 0#32), (3, 0#32)]
    storeR := [(0, 0#32), (1, 0#32), (2, 0#32), (3, 0#32)] }

/-- Three frames pushed (95_test_vectors.md 2.6, first row). -/
def three : State :=
  { active4 with
    wcur := 3#32, ctlRec := 1#32
    storeL := [(0, 0x3F800000#32), (1, 0x40000000#32), (2, 0x40400000#32), (3, 0#32)]
    storeR := [(0, 0xBF800000#32), (1, 0xC0000000#32), (2, 0xC0400000#32), (3, 0#32)] }

/-- Four frames pushed: the ring is full, nothing lost. -/
def full4 : State :=
  { active4 with
    full := true, ctlRec := 1#32
    storeL := [(0, 0x3F800000#32), (1, 0x40000000#32), (2, 0x40400000#32), (3, 0x40800000#32)]
    storeR := [(0, 0xBF800000#32), (1, 0xC0000000#32), (2, 0xC0400000#32), (3, 0xC0800000#32)] }

/-- The state after program P1 step 8 (95_test_vectors.md 2.9). -/
def overrun : State :=
  { active4 with
    wcur := 1#32, rcur := 1#32, full := true, clip := true, ctlRec := 1#32
    storeL := [(0, 0x40A00000#32), (1, 0x40000000#32), (2, 0x40400000#32), (3, 0x40800000#32)]
    storeR := [(0, 0xC0A00000#32), (1, 0xC0000000#32), (2, 0xC0400000#32), (3, 0xC0800000#32)] }

/-- A ring of one slot, empty. -/
def active1 : State :=
  { setUp 0x3F800000#32 with
    lc := .active, alloc := true, cap := 1#32, br := 2#24, ctlRec := 1#32, storeL := [(0, 0#32)], storeR := [(0, 0#32)] }

/-- After DEACTIVATE: configured with the store still allocated. -/
def deactivated : State := { overrun with lc := .configured }

/-- After TEARDOWN. -/
def destroyed : State := { deactivated with lc := .destroyed, alloc := false, full := false }

/-- After one fault of code 2 from power-on. -/
def faulted2 : State := { uninit with faulted := true, fcode := 2#4 }

/-! ### Well-formedness and decoding -/

/-- Each check of the packet's form refuses a term that fails it alone (R60); the port is a check of its own (R102). -/
theorem test_wellformed_refuses :
    Packet.wellFormed ⟨0x00000000#32, []⟩ = false
      ∧ Packet.wellFormed ⟨0xF0000000#32, []⟩ = false
      ∧ Packet.wellFormed ⟨0x61000004#32, []⟩ = false
      ∧ Packet.wellFormed ⟨0x20000001#32, []⟩ = false
      ∧ Packet.wellFormed ⟨0x10000000#32, []⟩ = false
      ∧ Packet.wellFormed ⟨0x60000001#32, []⟩ = true
      ∧ Packet.legalOn ⟨0x60000001#32, []⟩ .rt = false
      ∧ Packet.legalOn ⟨0x60000001#32, []⟩ .ctl = true
      ∧ Pseudo.wellFormed (.process 2#24 0#32 1#32 0#32 [(0#32, 0#32)]) = false := by decide

/-- The CTL commands' words, written out field by field from R52, R53 and R56: OP, RSV, IMM24. -/
theorem test_decode_ctl :
    decode .ctl ⟨0b0001_0000_000000000000000000000000#32, [0x40800000#32]⟩ = .ok (.setup 0x40800000#32)
      ∧ decode .ctl ⟨0b0010_0000_000000000000000000000000#32, []⟩ = .ok .activate
      ∧ decode .ctl ⟨0b0011_0000_000000000000000000000000#32, []⟩ = .ok .deactivate
      ∧ decode .ctl ⟨0b0100_0000_000000000000000000000000#32, []⟩ = .ok .teardown
      ∧ decode .ctl ⟨0b0101_0000_000000000000000000000000#32, []⟩ = .ok .reset
      ∧ decode .ctl ⟨0b0110_0000_000000000000000000000100#32, []⟩ = .ok (.drain 4#24)
      ∧ decode .ctl ⟨0b0111_0000_000000000000000000001010#32, []⟩ = .ok (.rdreg 10#24)
      ∧ decode .ctl ⟨0b1000_0000_100000000000000000000011#32, []⟩ = .ok (.peek 0x800003#24) := by decide

/-- The RT commands' words, written out likewise. -/
theorem test_decode_rt :
    decode .rt ⟨0b1001_0000_000000000000000000000101#32, [7#32, 1#32, 9#32]⟩ = .ok (.block 5#24 7#32 1#32 9#32)
      ∧ decode .rt ⟨0b1010_0000_000000000000000000000000#32, [0x3F800000#32, 0xBF800000#32]⟩
        = .ok (.frame 0x3F800000#32 0xBF800000#32) := by decide

/-- The decoder's vectors (95_test_vectors.md 2.1) and the order of its checks (R59). -/
theorem test_decode_rejects :
    decode .ctl ⟨0x00000000#32, []⟩ = .error .reservedOp
      ∧ decode .ctl ⟨0xB0000000#32, []⟩ = .error .reservedOp
      ∧ decode .ctl ⟨0x61000004#32, []⟩ = .error .reservedBits
      ∧ decode .ctl ⟨0x20000001#32, []⟩ = .error .unusedImm
      ∧ decode .ctl ⟨0x10000000#32, []⟩ = .error .dataCount
      ∧ decode .rt ⟨0xA0000000#32, [0x3F800000#32, 0xBF800000#32, 0#32]⟩ = .error .dataCount
      ∧ decode .rt ⟨0x60000001#32, []⟩ = .error .wrongPort
      ∧ decode .ctl ⟨0x90000001#32, [0#32, 1#32, 0#32]⟩ = .error .wrongPort
      ∧ decode .rt ⟨0x61000001#32, []⟩ = .error .reservedBits := by decide

/-- A table word of each length: the data words stand above the command word, the first lowest. -/
theorem test_table_word :
    decodeTableWord 64 0x40800000_10000000 = some (.setup 0x40800000#32)
      ∧ decodeTableWord 32 0x60000004 = some (.drain 4#24)
      ∧ decodeTableWord 128 0x00000009_00000001_00000003_90000005 = some (.block 5#24 3#32 1#32 9#32)
      ∧ decodeTableWord 96 0xBF800000_3F800000_A0000000 = some (.frame 0x3F800000#32 0xBF800000#32)
      ∧ decodeTableWord 32 0xA0000000 = some (.frame 0#32 0#32)
      ∧ decodeTableWord 32 0xB0000000 = none := by decide

/-- The interface: a placed packet is the very next transaction, from reset and from a state with other packets waiting. -/
theorem test_fetch_word :
    lastStatus .ctl (step (State.reset.withFetchWord 64 0x40800000_10000000)) = some 0
      ∧ lastStatus .rt (step ({ uninit with ctlIn := [⟨0x20000000#32, []⟩] }.withFetchWord 96 0xA0000000)) = some 0x32 := by
  decide

/-! ### SETUP and ACTIVATE -/

/-- The vectors of 95_test_vectors.md 2.3 with MAX_DURATION_S = 1: exact product, rounded down, bounded by STORE_DEPTH. -/
theorem test_capacity :
    [0x40800000#32, 0x40200000#32, 0x3F800000#32, 0x41800000#32, 0x41880000#32, 0x473B8000#32, 0x3F000000#32, 0x00000000#32,
      0x80000000#32, 0x00000001#32, 0xC0800000#32, 0x7FC00001#32, 0x7F800000#32, 0xFF800000#32].map (allocatable vectorParams)
      = [some 4, some 2, some 1, some 16, none, none, none, none, none, none, none, none, none, none] := by decide

/-- The vectors of 95_test_vectors.md 2.3 with other durations: 1/2, 3/2, 1/4 and 1/3000. -/
theorem test_capacity_durations :
    allocatable ⟨0, 1, 15, 1#32⟩ 0x40800000#32 = some 2
      ∧ allocatable ⟨2, 1, 15, 1#32⟩ 0x40400000#32 = some 4
      ∧ allocatable ⟨0, 3, 15, 1#32⟩ 0x40A00000#32 = some 1
      ∧ allocatable ⟨0, 2999, 15, 1#32⟩ 0x473B8000#32 = some 16
      ∧ capacityOf vectorParams 0xC0800000#32 = some (-4)
      ∧ capacityOf vectorParams 0xBF000000#32 = some (-1) := by decide

/-- SETUP from power-on: SR and LC, OK (R80, example). -/
theorem test_setup :
    (after (exec (.setup 0x40800000#32) uninit)).map (fun t => (t.lc, t.sr, t.ctlOut))
      = some (.configured, 0x40800000#32, [⟨0#32, []⟩]) := by decide

/-- ACTIVATE (R82, example): CAP = 4, four zero slots and no more, LC = ACTIVE. -/
theorem test_activate :
    after (exec .activate (setUp 0x40800000#32)) = some { active4 with ctlOut := [⟨0#32, []⟩] } := by decide

/-- ACTIVATE that cannot obtain storage answers ERR_ALLOC and leaves LC (R84). -/
theorem test_activate_err_alloc :
    (after (exec .activate (setUp 0x41880000#32))).map (fun t => (t.lc, t.alloc, t.faulted, t.ctlOut))
      = some (.configured, false, false, [⟨1#32, []⟩]) := by decide

/-! ### DEACTIVATE, TEARDOWN, RESET -/

/-- DEACTIVATE changes LC alone (R86); in a block it faults with code 5. -/
theorem test_deactivate :
    after (exec .deactivate overrun) = some { deactivated with ctlOut := [⟨0#32, []⟩] }
      ∧ lastStatus .ctl (exec .deactivate { active4 with br := 1#24 }) = some 0x52 := by decide

/-- TEARDOWN clears ALLOC and FULL, and keeps CAP, the cursors and CLIP (R87; 95_test_vectors.md 2.8). -/
theorem test_teardown :
    (after (exec .teardown deactivated)).map (fun t => (t.lc, t.alloc, t.full, t.cap, t.wcur, t.clip))
      = some (.destroyed, false, false, 4#32, 1#32, true) := by decide

/-- RESET (95_test_vectors.md 2.7): cursors and flags cleared, the store as it was. -/
theorem test_reset :
    after (exec .reset overrun)
      = some { overrun with wcur := 0#32, rcur := 0#32, full := false, clip := false, ctlOut := [⟨0#32, []⟩] } := by decide

/-- RESET with no storage and in a block (95_test_vectors.md 2.7). -/
theorem test_reset_faults :
    lastStatus .ctl (exec .reset (setUp 0x40800000#32)) = some 0x42
      ∧ lastStatus .ctl (exec .reset { active4 with br := 3#24 }) = some 0x52
      ∧ lastStatus .ctl (exec .reset destroyed) = some 0x32 := by decide

/-! ### DRAIN, RDREG, PEEK -/

/-- DRAIN 4 of three frames returns three (95_test_vectors.md 2.6, first row). -/
theorem test_drain_less :
    (after (exec (.drain 4#24) three)).map (fun t => (t.rcur, t.full, t.ctlOut))
      = some (3#32, false, [⟨0#32, [3#32, 0x3F800000#32, 0xBF800000#32, 0x40000000#32, 0xC0000000#32,
          0x40400000#32, 0xC0400000#32]⟩]) := by decide

/-- DRAIN of a full ring wraps, comes back to RCUR = 1 and leaves CLIP (95_test_vectors.md 2.6). -/
theorem test_drain_wraps :
    (after (exec (.drain 0xFFFFFF#24) overrun)).map (fun t => (t.rcur, t.full, t.clip, t.ctlOut))
      = some (1#32, false, true, [⟨0#32, [4#32, 0x40000000#32, 0xC0000000#32, 0x40400000#32, 0xC0400000#32,
          0x40800000#32, 0xC0800000#32, 0x40A00000#32, 0xC0A00000#32]⟩]) := by decide

/-- The views 0 to 10 of the state after P1 step 8 (95_test_vectors.md 2.9). -/
theorem test_rdreg :
    (List.range 12).map (fun n => lastOn .ctl (exec (.rdreg (BitVec.ofNat 24 n)) overrun))
      = [0x1E#32, 4#32, 1#32, 1#32, 4#32, 0#32, 0x40800000#32, 1#32, 0#32, 0#32, 0x10#32].map
          (fun w => some ⟨0#32, [w]⟩) ++ [some ⟨0x72#32, []⟩] := by decide

/-- RDREG 0 from power-on and after one fault of code 2 (95_test_vectors.md 2.9, 2.10). -/
theorem test_rdreg_status :
    lastOn .ctl (exec (.rdreg 0#24) uninit) = some ⟨0#32, [0#32]⟩
      ∧ lastOn .ctl (exec (.rdreg 0#24) faulted2) = some ⟨0#32, [0x220#32]⟩ := by decide

/-- PEEK 0, 3 and 4 of the state after P1 step 8 (95_test_vectors.md 2.9). -/
theorem test_peek :
    lastOn .ctl (exec (.peek 0#24) overrun) = some ⟨0#32, [0x40A00000#32, 0xC0A00000#32]⟩
      ∧ lastOn .ctl (exec (.peek 3#24) overrun) = some ⟨0#32, [0x40800000#32, 0xC0800000#32]⟩
      ∧ lastOn .ctl (exec (.peek 4#24) overrun) = some ⟨0x72#32, []⟩ := by decide

/-- PEEK 99 with no storage faults with NO_STORAGE, not BAD_INDEX (95_test_vectors.md 2.2). -/
theorem test_peek_priority :
    lastStatus .ctl (exec (.peek 99#24) (setUp 0x40800000#32)) = some 0x42 := by decide

/-! ### BLOCK and FRAME -/

/-- BLOCK 0, 3, 1, 9 latches the controls in their order and owes no frame (95_test_vectors.md 2.4). -/
theorem test_block :
    (after (exec (.block 0#24 3#32 1#32 9#32) active4)).map (fun t => (t.br, t.ctlFmt, t.ctlRec, t.ctlSave, t.rtOut))
      = some (0#24, 3#32, 1#32, 9#32, [⟨0#32, [0#32]⟩]) := by decide

/-- BLOCK in a block faults with code 5; after an overrun its clip word is 1 (R88). -/
theorem test_block_in_block :
    lastStatus .rt (exec (.block 1#24 0#32 1#32 0#32) { active4 with br := 1#24 }) = some 0x52
      ∧ lastOn .rt (exec (.block 1#24 0#32 1#32 0#32) overrun) = some ⟨0#32, [1#32]⟩ := by decide

/-- A recorded FRAME that overruns: the example of R89. -/
theorem test_frame_overrun :
    after (exec (.frame 0x40A00000#32 0xC0A00000#32) { full4 with br := 1#24 })
      = some { overrun with rtOut := [⟨0#32, [0x40A00000#32, 0xC0A00000#32, 1#32]⟩] } := by decide

/-- Record controls 2 and -1 are not the sentinel 1; with RECORD_ACTIVE = -1 the latter is (95_test_vectors.md 2.4). -/
theorem test_frame_sentinel :
    (after (exec (.frame 7#32 8#32) { active4 with br := 1#24, ctlRec := 2#32 })).map (fun t => t.wcur) = some 0#32
      ∧ (after (exec (.frame 7#32 8#32) { active4 with br := 1#24, ctlRec := 0xFFFFFFFF#32 })).map (fun t => t.wcur) = some 0#32
      ∧ (after (exec (.frame 7#32 8#32)
          { active4 with br := 1#24, ctlRec := 0xFFFFFFFF#32, params := ⟨0, 0, 15, 0xFFFFFFFF#32⟩ })).map
            (fun t => (t.wcur, t.storeL.find 0)) = some (1#32, some 7#32) := by decide

/-- The text of a command's line (R63, R66). -/
theorem test_line :
    instrLine (.block 5#24 0#32 1#32 0#32) = "rt: BLOCK 5, 0x00000000, 0x00000001, 0x00000000" := by decide

/-! ### Witnesses: states and operands that meet the hypotheses of the statements -/

/-- A recording block open in a ring with room for one frame. -/
def recording3 : State := { three with br := 2#24 }

/-- A recording block open in a full ring. -/
def recordingFull : State := { full4 with br := 1#24 }

/-- A block open that does not record. -/
def passing : State := { overrun with br := 0xFFFFFF#24, ctlRec := 0#32 }

/-- A recording block of five frames open in a ring just activated. -/
def recording5 : State := { active4 with br := 5#24, ctlRec := 1#32 }

/-- A packet waiting on each port. -/
def queued : State := { recording3 with rtIn := [encode (.frame 5#32 6#32)], ctlIn := [encode (.drain 1#24), ⟨0#32, []⟩] }

/-- The last packet of RT waiting alone. -/
def oneFrame : State := { recordingFull with rtIn := [encode (.frame 5#32 6#32)] }

theorem test_inv_uninit : uninit.RegInv := by constructor <;> decide
theorem test_inv_faulted2 : faulted2.RegInv := by constructor <;> decide
theorem test_inv_set_up : (setUp 0x40800000#32).RegInv := by constructor <;> decide
theorem test_inv_active4 : active4.RegInv := by constructor <;> decide
theorem test_inv_three : three.RegInv := by constructor <;> decide
theorem test_inv_full4 : full4.RegInv := by constructor <;> decide
theorem test_inv_overrun : overrun.RegInv := by constructor <;> decide
theorem test_inv_deactivated : deactivated.RegInv := by constructor <;> decide
theorem test_inv_destroyed : destroyed.RegInv := by constructor <;> decide
theorem test_inv_active1 : active1.RegInv := by constructor <;> decide
theorem test_inv_recording3 : recording3.RegInv := by constructor <;> decide
theorem test_inv_recording_full : recordingFull.RegInv := by constructor <;> decide
theorem test_inv_recording5 : recording5.RegInv := by constructor <;> decide
theorem test_inv_queued : queued.RegInv := by constructor <;> decide
theorem test_inv_one_frame : oneFrame.RegInv := by constructor <;> decide

theorem test_witness_power_on_reset : ({ overrun with powerOnReq := true } : State).powerOnReq = true := rfl

theorem test_witness_idle_holds_state : overrun.powerOnReq = false ∧ overrun.rtIn = [] ∧ overrun.ctlIn = [] := by decide

theorem test_witness_port_order_kept :
    queued.rtIn ≠ [] ∧ queued.ctlIn ≠ [] ∧ (oneFrame.rtIn ≠ [] ∨ oneFrame.ctlIn ≠ []) ∧ oneFrame.ctlIn = [] := by decide

theorem test_witness_step_runs_decoded :
    oneFrame.powerOnReq = false
      ∧ takePacket oneFrame = some (.rt, encode (.frame 5#32 6#32), { oneFrame with rtIn := [], arbCount := 1 })
      ∧ decode .rt (encode (.frame 5#32 6#32)) = .ok (.frame 5#32 6#32) := ⟨rfl, rfl, rfl⟩

theorem test_witness_step_rejects_illegal :
    takePacket { uninit with ctlIn := [⟨0#32, []⟩] } = some (.ctl, ⟨0#32, []⟩, { uninit with arbCount := 1 })
      ∧ decode .ctl ⟨0#32, []⟩ = .error .reservedOp
      ∧ takePacket { uninit with rtIn := [⟨0x60000001#32, []⟩] }
        = some (.rt, ⟨0x60000001#32, []⟩, { uninit with arbCount := 1 })
      ∧ decode .rt ⟨0x60000001#32, []⟩ = .error .wrongPort := ⟨rfl, rfl, rfl, rfl⟩

theorem test_witness_fetch_word_runs :
    decodeTableWord 96 0xBF800000_3F800000_A0000000 = some (.frame 0x3F800000#32 0xBF800000#32)
      ∧ decodeTableWord 32 0x8FFFFFFF = none ∧ decodeTableWord 32 0x80FFFFFF = some (.peek 0xFFFFFF#24) := by decide

theorem test_witness_encode_of_decode :
    decode .rt ⟨0x90FFFFFF#32, [0#32, 1#32, 0#32]⟩ = .ok (.block 0xFFFFFF#24 0#32 1#32 0#32) := by decide

/-- One packet for each clause of IllegalEncodingsFault, at the ends of the reserved ranges. -/
theorem test_witness_illegal_encodings :
    (0x0FFFFFFF#32).toNat / 2 ^ 28 = 0 ∧ 0xB ≤ (0xB0000000#32).toNat / 2 ^ 28 ∧ 0xB ≤ (0xFFFFFFFF#32).toNat / 2 ^ 28
      ∧ (0x61000004#32).toNat / 2 ^ 24 % 2 ^ 4 ≠ 0
      ∧ ((0xA0000001#32).toNat / 2 ^ 28 ∈ [0x1, 0x2, 0x3, 0x4, 0x5, 0xA] ∧ (0xA0000001#32).toNat % 2 ^ 24 ≠ 0)
      ∧ (0x20000000#32).toNat / 2 ^ 28 = 2 ∧ ([0#32] : List Word).length ≠ 0
      ∧ (0x90000001#32).toNat / 2 ^ 28 = 9 ∧ ([0#32, 0#32] : List Word).length ≠ 3 := by decide

theorem test_witness_wrong_port :
    Port.rt ≠ (Instr.drain 1#24).port ∧ Port.ctl ≠ (Instr.frame 0#32 0#32).port := by decide

theorem test_witness_fault_record_sticky :
    faulted2.faulted = true ∧ faulted2.powerOnReq = false
      ∧ ∃ t, step { faulted2 with ctlIn := [⟨0#32, []⟩] } = .next t := ⟨rfl, rfl, _, rfl⟩

theorem test_witness_no_partial_execution :
    (∃ t, exec .activate uninit = .next t) ∧ (∃ t, exec .activate (setUp 0x7F800000#32) = .next t)
      ∧ ∃ t, exec .reset overrun = .next t := ⟨⟨_, rfl⟩, ⟨_, rfl⟩, ⟨_, rfl⟩⟩

theorem test_witness_one_response :
    oneFrame.RegInv ∧ oneFrame.powerOnReq = false ∧ ∃ x, takePacket oneFrame = some x := ⟨test_inv_one_frame, rfl, _, rfl⟩

theorem test_witness_run_is_an_interleaving : queued.RegInv ∧ queued.powerOnReq = false := ⟨test_inv_queued, rfl⟩

theorem test_witness_register_invariant_kept : oneFrame.RegInv ∧ ∃ t, step oneFrame = .next t :=
  ⟨test_inv_one_frame, _, rfl⟩

theorem test_store_inv_one_frame : oneFrame.StoreInv := by constructor <;> decide

theorem test_witness_store_invariant_kept : oneFrame.StoreInv ∧ ∃ t, step oneFrame = .next t :=
  ⟨test_store_inv_one_frame, _, rfl⟩

theorem test_cap_inv : oneFrame.CapInv ∧ deactivated.CapInv := by unfold State.CapInv; decide

theorem test_witness_capacity_invariant_kept : oneFrame.RegInv ∧ oneFrame.CapInv ∧ ∃ t, step oneFrame = .next t :=
  ⟨test_inv_one_frame, test_cap_inv.1, _, rfl⟩

theorem test_witness_block_never_stops : queued.RegInv ∧ destroyed.RegInv := ⟨test_inv_queued, test_inv_destroyed⟩

theorem test_witness_parameters_fixed : ∃ t, step { overrun with powerOnReq := true } = .next t := ⟨_, rfl⟩

/-- COUNT in each of its cases, the wrapped one among them (R27). -/
theorem test_witness_count_formula :
    uninit.alloc = false ∧ count uninit = 0#32 ∧ full4.alloc = true ∧ full4.full = true ∧ count full4 = 4#32
      ∧ three.full = false ∧ 0 < three.cap.toNat ∧ count three = 3#32
      ∧ count { three with wcur := 1#32, rcur := 3#32 } = 2#32 := by decide

theorem test_witness_full_means_count_is_cap :
    full4.RegInv ∧ full4.full = true ∧ three.RegInv ∧ three.full = false ∧ uninit.RegInv ∧ uninit.alloc = false :=
  ⟨test_inv_full4, rfl, test_inv_three, rfl, test_inv_uninit, rfl⟩

theorem test_witness_setup : uninit.lc = .uninit ∧ destroyed.lc ≠ .uninit := by decide

/-- The clauses of ActivateRule where they meet: capacities 0, 1, STORE_DEPTH and one more, and none. -/
theorem test_witness_activate :
    uninit.lc ≠ .configured ∧ (setUp 0x7FC00001#32).lc = .configured
      ∧ capacityOf vectorParams 0x7FC00001#32 = none ∧ capacityOf vectorParams 0x3F000000#32 = some 0
      ∧ capacityOf vectorParams 0x3F800000#32 = some 1 ∧ capacityOf vectorParams 0x41800000#32 = some 16
      ∧ capacityOf vectorParams 0x41880000#32 = some 17 ∧ vectorParams.storeDepth = 16 := by decide

theorem test_witness_failed_activate_repeats :
    (setUp 0x3F000000#32).lc = .configured
      ∧ exec .activate (setUp 0x3F000000#32) = .next (respond .ctl errAllocStatus [] (setUp 0x3F000000#32)) := ⟨rfl, rfl⟩

theorem test_witness_reactivation :
    deactivated.RegInv ∧ deactivated.CapInv ∧ deactivated.lc = .configured ∧ deactivated.alloc = true :=
  ⟨test_inv_deactivated, test_cap_inv.2, rfl, rfl⟩

theorem test_witness_deactivate :
    overrun.lc = .active ∧ overrun.br = 0#24 ∧ uninit.lc ≠ .active ∧ recording3.lc = .active ∧ recording3.br ≠ 0#24 := by
  decide

theorem test_witness_teardown : deactivated.lc = .configured ∧ overrun.lc ≠ .configured := by decide

/-- The clauses of ResetRule, DrainRule and PeekRule on LC and ALLOC; with BR = 0 also ResetIdempotent's hypotheses. -/
theorem test_witness_in_service :
    overrun.lc = .active ∧ overrun.alloc = true ∧ overrun.br = 0#24 ∧ deactivated.lc = .configured
      ∧ deactivated.alloc = true ∧ uninit.lc = .uninit ∧ destroyed.lc = .destroyed
      ∧ (setUp 0x40800000#32).lc = .configured ∧ (setUp 0x40800000#32).alloc = false
      ∧ recording3.lc = .active ∧ recording3.alloc = true ∧ recording3.br ≠ 0#24 := by decide

/-- DrainRule at its ends: no frame asked for, fewer than there are, more than there are. -/
theorem test_witness_drain :
    overrun.RegInv ∧ uninit.RegInv ∧ (setUp 0x40800000#32).RegInv ∧ drainCount 0#24 overrun = 0 ∧ drainCount 3#24 overrun = 3
      ∧ drainCount 0xFFFFFF#24 overrun = 4 :=
  ⟨test_inv_overrun, test_inv_uninit, test_inv_set_up, rfl, rfl, rfl⟩

theorem test_witness_rdreg : ¬ 10 < (10#24).toNat ∧ 10 < (11#24).toNat ∧ 10 < (0xFFFFFF#24).toNat := by decide

theorem test_witness_peek :
    overrun.RegInv ∧ (3#24).toNat < overrun.cap.toNat ∧ overrun.cap.toNat ≤ (4#24).toNat :=
  ⟨test_inv_overrun, by decide, by decide⟩

theorem test_witness_block : active4.lc = .active ∧ active4.br = 0#24 ∧ (setUp 0#32).lc ≠ .active ∧ passing.br ≠ 0#24 := by decide

theorem test_witness_frame_rule_pass :
    passing.lc = .active ∧ passing.br ≠ 0#24 ∧ passing.ctlRec.toInt ≠ passing.params.recordActive.toInt
      ∧ active4.lc = .active ∧ active4.br = 0#24 ∧ uninit.lc ≠ .active := by decide

theorem test_witness_frame_rule_record :
    recording3.RegInv ∧ recordingFull.RegInv ∧ recording3.lc = .active ∧ recordingFull.lc = .active
      ∧ recording3.br ≠ 0#24 ∧ recordingFull.br ≠ 0#24 ∧ recording3.ctlRec.toInt = recording3.params.recordActive.toInt
      ∧ recordingFull.ctlRec.toInt = recordingFull.params.recordActive.toInt
      ∧ recording3.full = false ∧ recordingFull.full = true :=
  ⟨test_inv_recording3, test_inv_recording_full, rfl, rfl, by decide, by decide, rfl, rfl, rfl, rfl⟩

theorem test_witness_passthrough_unconditional :
    recordingFull.lc = .active ∧ recordingFull.br ≠ 0#24 ∧ (∃ t, exec (.frame 1#32 2#32) recordingFull = .next t)
      ∧ passing.br ≠ 0#24 ∧ ∃ t, exec (.frame 1#32 2#32) passing = .next t :=
  ⟨rfl, by decide, ⟨_, rfl⟩, by decide, _, rfl⟩

/-- Commands that change what RegisterWriters, StoreWriters, LifecycleEdges and ClipSetOnlyByOverrun speak of. -/
theorem test_witness_writers :
    (∃ t, exec (.frame 1#32 2#32) recordingFull = .next t ∧ t.wcur ≠ recordingFull.wcur ∧ t.rcur ≠ recordingFull.rcur
        ∧ recordingFull.clip = false ∧ t.clip = true ∧ t.slotL 0 ≠ recordingFull.slotL 0)
      ∧ (∃ t, exec .activate deactivated = .next t ∧ t.lc ≠ deactivated.lc ∧ deactivated.clip = true ∧ t.clip = false
        ∧ t.slotL 3 ≠ deactivated.slotL 3)
      ∧ ∃ t, exec .teardown deactivated = .next t ∧ t.lc ≠ deactivated.lc ∧ t.alloc ≠ deactivated.alloc :=
  ⟨⟨_, rfl, by decide⟩, ⟨_, rfl, by decide⟩, ⟨_, rfl, by decide⟩⟩

theorem test_witness_destroyed_is_terminal :
    destroyed.lc = .destroyed ∧ (∀ idx, Instr.reset ≠ .rdreg idx) ∧ destroyed.powerOnReq = false
      ∧ ∃ t, step { destroyed with ctlIn := [encode .activate] } = .next t :=
  ⟨rfl, fun _ h => Instr.noConfusion h, rfl, _, rfl⟩

theorem test_witness_refused_in_block : recording3.RegInv ∧ recording3.br ≠ 0#24 := ⟨test_inv_recording3, by decide⟩

theorem test_witness_format_and_save_inert :
    Instr.rdreg 7#24 ≠ .rdreg 8#24 ∧ Instr.rdreg 7#24 ≠ .rdreg 9#24 ∧ ∀ n f r v, Instr.rdreg 7#24 ≠ .block n f r v :=
  ⟨by decide, by decide, fun _ _ _ _ h => Instr.noConfusion h⟩

/-- RingIsBoundedQueue in a ring with room and in a full one; RESET between blocks. -/
theorem test_witness_ring_is_bounded_queue :
    (unread recording3).length < recording3.cap.toNat ∧ ¬ (unread recordingFull).length < recordingFull.cap.toNat
      ∧ overrun.RegInv ∧ overrun.alloc = true ∧ overrun.br = 0#24 :=
  ⟨by decide, by decide, test_inv_overrun, rfl, rfl⟩

/-- The first clause of PushesAfterReset: an open recording block owing exactly the frames. -/
theorem test_witness_pushes_in_a_block :
    recording5.RegInv ∧ recording5.lc = .active ∧ recording5.ctlRec.toInt = recording5.params.recordActive.toInt
      ∧ (List.replicate 5 ((1#32 : Word), (2#32 : Word))).length ≤ recording5.br.toNat :=
  ⟨test_inv_recording5, rfl, rfl, by decide⟩

/-- A recording block of two frames with a PEEK between them, a block that does not record, and a recording block of `n` frames. -/
def blocks (n : Nat) : List Instr :=
  [.block 2#24 0#32 1#32 0#32, .frame 1#32 1#32, .peek 0#24, .frame 2#32 2#32, .block 1#24 0#32 0#32 0#32, .frame 9#32 9#32,
    .block (BitVec.ofNat 24 n) 0#32 1#32 0#32] ++ (List.range n).map fun k => .frame (BitVec.ofNat 32 (k + 3)) 0#32

/-- The second clause of PushesAfterReset with less than the capacity recorded, exactly the capacity and one frame more; the first two are
DrainReturnsWhatWasPushed's too. -/
theorem test_witness_pushes_after_reset :
    active4.RegInv ∧ active4.alloc = true ∧ active4.wcur = 0#32 ∧ active4.rcur = 0#32 ∧ active4.full = false
      ∧ active4.clip = false ∧ active4.cap.toNat = 4 ∧ unread active4 = []
      ∧ (recordedBy (blocks 1) active4).length = 3 ∧ (recordedBy (blocks 2) active4).length = 4
      ∧ (recordedBy (blocks 3) active4).length = 5 :=
  ⟨test_inv_active4, rfl, rfl, rfl, rfl, rfl, rfl, rfl, rfl, rfl, rfl⟩

theorem test_witness_only_pushes : ∀ i ∈ blocks 3, OnlyPushes i := by
  simp [blocks, OnlyPushes]

/-- P1 and scenario 1 of section 1.2: five frames into four slots. -/
theorem test_five_frames :
    (after (execAll (frameCommands [(1#32, 1#32), (2#32, 2#32), (3#32, 3#32), (4#32, 4#32), (5#32, 5#32)]) recording5)).map
        (fun t => (t.wcur, t.rcur, t.full, t.clip, t.storeL))
      = some (1#32, 1#32, true, true, [(0, 5#32), (1, 2#32), (2, 3#32), (3, 4#32)]) := rfl

theorem test_witness_drain_returns_pushed :
    active4.RegInv ∧ unread active4 = [] ∧ (recordedBy (blocks 2) active4).length ≤ active4.cap.toNat
      ∧ (recordedBy (blocks 2) active4).length < 2 ^ 24 := ⟨test_inv_active4, rfl, by decide, by decide⟩

theorem test_witness_unrecorded_block :
    active4.lc = .active ∧ active4.br = 0#24 ∧ (0#32 : Word).toInt ≠ active4.params.recordActive.toInt
      ∧ ([(1#32, 2#32)] : List (Word × Word)).length = (1#24).toNat := by decide

/-- WholeBlockNeverErrs with inspection commands among and after the FRAMEs, their indices in range (its clauses on LC and the fault record),
with lifecycle commands there, and with no CTL command (its clause on the CTL responses). -/
theorem test_witness_whole_block :
    full4.RegInv ∧ full4.lc = .active ∧ full4.br = 0#24 ∧ ([(1#32, 2#32), (3#32, 4#32)] : List (Word × Word)).length = (2#24).toNat
      ∧ [Instr.frame 1#32 2#32, .drain 2#24, .peek 3#24, .rdreg 10#24, .frame 3#32 4#32, .drain 1#24].filter
          (fun i => i.port = .rt) = frameCommands [(1#32, 2#32), (3#32, 4#32)]
      ∧ (3#24).toNat < full4.cap.toNat ∧ (10#24).toNat ≤ 10
      ∧ [Instr.frame 1#32 2#32, .deactivate, .frame 3#32 4#32, .deactivate].filter
          (fun i => i.port = .rt) = frameCommands [(1#32, 2#32), (3#32, 4#32)]
      ∧ (frameCommands [(1#32, 2#32), (3#32, 4#32)]).filter (fun i => i.port = .rt) = frameCommands [(1#32, 2#32), (3#32, 4#32)] :=
  ⟨test_inv_full4, rfl, rfl, rfl, rfl, by decide, by decide, rfl, rfl⟩

theorem test_witness_capacity_one :
    active1.RegInv ∧ active1.alloc = true ∧ active1.cap = 1#32 ∧ active1.lc = .active ∧ active1.br ≠ 0#24
      ∧ active1.ctlRec.toInt = active1.params.recordActive.toInt :=
  ⟨test_inv_active1, rfl, rfl, rfl, by decide, rfl⟩

theorem test_witness_clear_clip :
    recording3.RegInv ∧ recording3.lc = .active ∧ recording3.br ≠ 0#24 ∧ Machine.recording recording3 = true
      ∧ ∃ t, exec (.frame 1#32 2#32) recording3 = .next t ∧ t.clip = false :=
  ⟨test_inv_recording3, rfl, by decide, rfl, _, rfl, rfl⟩

end Sys2Proof.Tests
end

/-! SUPPORT. Proof of the statement about the power-on register values (spec/10_state.md R35). -/

namespace Sys2Proof.Machine

/-- Settles O1: `State.reset` lists the registers one by one, so each conjunct, a row of R35's table, is the value of its field. -/
theorem powerOnValues : Obligations.PowerOnValues :=
  ⟨rfl, rfl, rfl, rfl, rfl, rfl, rfl, rfl, rfl, rfl, rfl, rfl, rfl, rfl⟩

end Sys2Proof.Machine

/-! SUPPORT. Proof of the statement about the illegal encodings (spec/30_encoding.md R60), from the decoder's checks (R59) and the numbers
that the opcode map (R53, R56) gives the opcodes. -/

namespace Sys2Proof

/-- The listed OP values are 0x1 to 0xA (R56). -/
theorem Opcode.field_toNat_range (op : Opcode) : 0x1 ≤ op.field.toNat ∧ op.field.toNat ≤ 0xA := by cases op <;> decide

/-- The opcodes that take no operand in IMM24, by their OP values (R52, R60). -/
theorem Opcode.usesImm_eq_false_iff (op : Opcode) :
    op.usesImm = false ↔ op.field.toNat ∈ [0x1, 0x2, 0x3, 0x4, 0x5, 0xA] := by cases op <;> decide

/-- The data-word counts by OP value (R53). -/
theorem Opcode.dataWords_eq (op : Opcode) : op.dataWords
    = if op.field.toNat = 0x1 then 1 else if op.field.toNat = 0x9 then 3 else if op.field.toNat = 0xA then 2 else 0 := by
  cases op <;> rfl

/-- One of the first four checks of R59 fails: OP names no opcode, or the opcode it names has a field or a data-word count that R60 forbids. -/
def Packet.Illegal (p : Packet) : Prop :=
  ∀ op, Opcode.ofField (opField p.word) = some op →
    rsvField p.word ≠ 0#4 ∨ (op.usesImm = false ∧ immField p.word ≠ 0#24) ∨ p.data.length ≠ op.dataWords

/-- The decoder rejects an illegal packet before it looks at the port, so on either port the fault is ILLEGAL_CMD (R59). -/
theorem decode_of_illegal (port : Port) {p : Packet} (h : p.Illegal) :
    ∃ e, decode port p = .error e ∧ Machine.rejectCode e = .illegalCmd := by
  unfold decode
  cases hop : Opcode.ofField (opField p.word) with
  | none => exact ⟨.reservedOp, rfl, rfl⟩
  | some op =>
    by_cases hrsv : rsvField p.word ≠ 0#4
    · exact ⟨.reservedBits, if_pos hrsv, rfl⟩
    by_cases himm : op.usesImm = false ∧ immField p.word ≠ 0#24
    · exact ⟨.unusedImm, by simp only [if_neg hrsv, if_pos himm], rfl⟩
    have hdata : p.data.length ≠ op.dataWords := ((h op hop).resolve_left hrsv).resolve_left himm
    exact ⟨.dataCount, by simp only [if_neg hrsv, if_neg himm, if_pos hdata], rfl⟩

/-- R60's list, read from the bits of the command word, is the decoder's: each of its items makes the packet illegal. -/
theorem illegal_of_bits {w : Word} {d : List Word}
    (h : w.toNat / 2 ^ 28 = 0 ∨ 0xB ≤ w.toNat / 2 ^ 28 ∨ w.toNat / 2 ^ 24 % 2 ^ 4 ≠ 0
      ∨ (w.toNat / 2 ^ 28 ∈ [0x1, 0x2, 0x3, 0x4, 0x5, 0xA] ∧ w.toNat % 2 ^ 24 ≠ 0)
      ∨ d.length ≠ (if w.toNat / 2 ^ 28 = 0x1 then 1 else if w.toNat / 2 ^ 28 = 0x9 then 3
          else if w.toNat / 2 ^ 28 = 0xA then 2 else 0)) :
    Packet.Illegal ⟨w, d⟩ := by
  intro op hop
  obtain ⟨hfield, hrsv, himm⟩ := field_toNat w
  rw [← field_of_ofField hop] at hfield
  rw [← hfield, ← hrsv, ← himm, ← op.usesImm_eq_false_iff, ← op.dataWords_eq] at h
  have hrange := op.field_toNat_range
  rcases h with hzero | hhigh | hr | ⟨hu, hi⟩ | hd
  · omega
  · omega
  · exact .inl fun h0 => hr (congrArg BitVec.toNat h0)
  · exact .inr (.inl ⟨hu, fun h0 => hi (congrArg BitVec.toNat h0)⟩)
  · exact .inr (.inr hd)

end Sys2Proof

namespace Sys2Proof.Machine

/-- The transaction of an illegal packet is the fault ILLEGAL_CMD and nothing else: no command is executed (R60). -/
theorem transact_of_illegal (port : Port) {p : Packet} (h : p.Illegal) (s : State) :
    transact port p s = .next (raiseFault port .illegalCmd s) := by
  obtain ⟨e, hdecode, hcode⟩ := decode_of_illegal port h
  simp only [transact, hdecode, hcode]

/-- Settles O13: each item of R60's list makes the packet illegal, and an illegal packet's transaction is the fault. -/
theorem illegalEncodingsFault : Obligations.IllegalEncodingsFault :=
  fun port _ _ s h => transact_of_illegal port (illegal_of_bits h) s

end Sys2Proof.Machine

/-! SUPPORT. A command's packet on the port that is not its own (spec/30_encoding.md R59): the decoder's four checks before the port check
pass, so the fault is WRONG_PORT. -/

namespace Sys2Proof

/-- The packet of every command holds its fields where the decoder reads them (R52, R53, R56). -/
theorem encodedFields (i : Instr) : Laws.EncodedFields.Statement i :=
  Laws.EncodedFields.of_shape (by cases i <;> simp [Instr.opcode, Opcode.usesImm, Instr.imm]) (by cases i <;> rfl)

/-- Of R59's five checks, a command's packet on the other port fails the last one only. -/
theorem decode_encode_of_port_ne {i : Instr} {port : Port} (h : port ≠ i.port) :
    decode port (encode i) = .error .wrongPort := by
  obtain ⟨hop, hrsv, himm, hunused, hdata⟩ := encodedFields i
  have himm0 : ¬(i.opcode.usesImm = false ∧ immField (encode i).word ≠ 0#24) := fun ⟨hu, h0⟩ => h0 (himm.trans (hunused hu))
  have hport : i.opcode.port ≠ port := Ne.symm h
  simp only [decode, hop, ofField_field, if_neg (not_not.2 hrsv), if_neg himm0, if_neg (not_not.2 hdata), if_pos hport]

end Sys2Proof

namespace Sys2Proof.Machine

/-- The transaction of a command's packet on the other port is the fault WRONG_PORT and nothing else (R102 code 2). -/
theorem transact_encode_of_port_ne {i : Instr} {port : Port} (h : port ≠ i.port) (s : State) :
    transact port (encode i) s = .next (raiseFault port .wrongPort s) := by
  simp only [transact, decode_encode_of_port_ne h, rejectCode]

end Sys2Proof.Machine

/-! SUPPORT. Proofs of the statements about RESET and DRAIN (spec/41_ring_buffer_store.md R68, R73): the effect from the rules of the ring,
the faults from the first check that fails. -/

namespace Sys2Proof.Machine

/-- DRAIN where its checks pass, while R33 holds: none of its reads is stopped, and they give the first k unread frames (R73). -/
theorem exec_drain_next {s : State} (hs : s.RegInv) (hlc : s.lc = .configured ∨ s.lc = .active) (ha : s.alloc = true)
    (m : Imm24) :
    exec (.drain m) s
      = .next (drained (drainCount m s) (frameWords ((List.range (drainCount m s)).map (frameAt s))) s) := by
  obtain ⟨hcap, hdepth, -, -⟩ := hs.ring ha
  have hpass : firstFault (drainChecks s) = none := by simp [drainChecks, hlc, ha]
  have hreads := readFrames_ok ha hcap hdepth (drainCount m s) 0
  simp only [Nat.zero_add] at hreads
  simp only [exec, execDrain, checked_none hpass, hreads]

/-- The state DRAIN leaves, with RCUR's sum and its remainder in natural arithmetic (R73). -/
theorem drained_eq {s : State} (hc : 0 < s.cap.toNat) (k : Nat) (out : List Word) :
    drained k out s = respondOk .ctl (BitVec.ofNat 32 k :: out)
      { s with
        rcur := BitVec.ofNat 32 ((s.rcur.toNat + k) % s.cap.toNat)
        full := if 0 < k then false else s.full } := by
  rw [← ringMod_eq hc, Nat.cast_add]
  rfl

/-- The sample words of the first k unread frames, slot by slot from RCUR on (R57, R73). -/
theorem frameWords_frameAt {s : State} (hc : 0 < s.cap.toNat) (k : Nat) :
    frameWords ((List.range k).map (frameAt s))
      = (List.range k).flatMap fun j =>
          [s.slotL ((s.rcur.toNat + j) % s.cap.toNat), s.slotR ((s.rcur.toNat + j) % s.cap.toNat)] := by
  simp only [frameWords, List.flatMap_map, frameAt_eq hc]

/-- Settles O40: the encoding and the port are the general ones, the effect is `exec_drain_next` with the ring's slots computed, and each
fault is the first check that fails. -/
theorem drainRule : Obligations.DrainRule := by
  intro m s hs
  have hother : Port.rt ≠ (Instr.drain m).port := nofun
  refine ⟨?encoding, rfl, transact_encode_of_port_ne hother s, ?effect, ?lifecycle, ?noStorage⟩
  case encoding => exact congrArg (Packet.mk · []) (commandWord_or_imm 0x6#4 m)
  case effect =>
    intro hlc ha
    have hcap := (hs.ring ha).1
    rw [exec_drain_next hs hlc ha, drained_eq hcap, frameWords_frameAt hcap]
    rfl
  case lifecycle =>
    intro hlc
    exact checked_some (by simp [drainChecks, firstFault_cons, hlc])
  case noStorage =>
    intro hlc ha
    have hservice := (notInService_eq_false s).2 hlc
    exact checked_some (by simp [drainChecks, firstFault_cons, hservice, ha])

/-- Settles O38: where the three checks pass RESET is DoReset and its response, which is the statement's state; each fault is the first
check that fails. -/
theorem resetRule : Obligations.ResetRule := by
  intro s
  refine ⟨rfl, rfl, ?effect, ?lifecycle, ?noStorage, ?inBlock⟩
  case effect =>
    intro hlc ha hbr
    exact checked_none (by simp [resetChecks, hlc, ha, hbr])
  case lifecycle =>
    intro hlc
    exact checked_some (by simp [resetChecks, firstFault_cons, hlc])
  case noStorage =>
    intro hlc ha
    have hservice := (notInService_eq_false s).2 hlc
    exact checked_some (by simp [resetChecks, firstFault_cons, hservice, ha])
  case inBlock =>
    intro hlc ha hbr
    have hservice := (notInService_eq_false s).2 hlc
    exact checked_some (by simp [resetChecks, firstFault_cons, hservice, ha, hbr])

end Sys2Proof.Machine

/-! SUPPORT. Proofs of the statements about the Stream Processor's commands (spec/42_stream_processor.md): the effect from the rules of
CONSTRUCT and PUSH, the faults from the first check that fails. -/

namespace Sys2Proof.Machine

/-! ### ACTIVATE (R82 to R84) -/

/-- No capacity is the AllocationError (R84). -/
theorem allocatable_of_capacityOf_none {p : Params} {sr : Word} (h : capacityOf p sr = none) : allocatable p sr = none := by
  simp only [allocatable, h]

/-- A capacity below 1 or above STORE_DEPTH is the AllocationError (R84). -/
theorem allocatable_eq_none {p : Params} {sr : Word} {c : Int} (h : capacityOf p sr = some c)
    (hout : c < 1 ∨ (p.storeDepth : Int) < c) : allocatable p sr = none := by
  simp only [allocatable, h, if_pos hout]

/-- A capacity from 1 to STORE_DEPTH is what ACTIVATE obtains (R84). -/
theorem allocatable_eq_some {p : Params} {sr : Word} {c : Int} (h : capacityOf p sr = some c)
    (hlow : 1 ≤ c) (hhigh : c ≤ (p.storeDepth : Int)) : allocatable p sr = some c.toNat := by
  have hin : ¬(c < 1 ∨ (p.storeDepth : Int) < c) := by omega
  simp only [allocatable, h, if_neg hin]

/-- ACTIVATE has no fault in CONFIGURED (R82). -/
theorem activateCheck_pass {s : State} (hlc : s.lc = .configured) :
    firstFault [(decide (s.lc ≠ .configured), .lifecycle)] = none := by
  simp [hlc]

/-- ACTIVATE without a capacity answers ERR_ALLOC and changes nothing (R84). -/
theorem exec_activate_errAlloc {s : State} (hlc : s.lc = .configured) (h : allocatable s.params s.sr = none) :
    exec .activate s = .next (respond .ctl errAllocStatus [] s) := by
  simp only [exec, execActivate, checked_none (activateCheck_pass hlc), h]

/-- ACTIVATE with a capacity constructs and resets the store (R82). -/
theorem exec_activate_ok {s : State} {c : Nat} (hlc : s.lc = .configured) (h : allocatable s.params s.sr = some c) :
    exec .activate s = .next (respondOk .ctl [] (activated c s)) := by
  simp only [exec, execActivate, checked_none (activateCheck_pass hlc), h]

/-- CAP after ACTIVATE is the capacity as a number: no physical depth is above 32 bits (R8, R82). -/
theorem activated_cap_toNat {s : State} {c : Nat} (h : c ≤ s.params.storeDepth) : (activated c s).cap.toNat = c :=
  (BitVec.toNat_ofNat c 32).trans (Nat.mod_eq_of_lt (h.trans_lt (Params.storeDepth_lt s.params)))

/-- Settles O33: an AllocationError is ERR_ALLOC, and otherwise the state is CONSTRUCT's and DoReset's, so CAP is the capacity and the slots
are those of `slot_construct`. -/
theorem activateRule : Obligations.ActivateRule := by
  intro s
  refine ⟨rfl, rfl, ?lifecycle, ?noCapacity, ?outOfRange, ?effect⟩
  case lifecycle =>
    intro hlc
    exact checked_some (by simp [firstFault_cons, hlc])
  case noCapacity =>
    intro hlc hnone
    exact exec_activate_errAlloc hlc (allocatable_of_capacityOf_none hnone)
  case outOfRange =>
    intro c hlc hcap hout
    exact exec_activate_errAlloc hlc (allocatable_eq_none hcap hout)
  case effect =>
    intro c hlc hcap hlow hhigh
    have halloc := allocatable_eq_some hcap hlow hhigh
    lift c to Nat using by omega
    refine ⟨_, exec_activate_ok hlc halloc, rfl, ?cap, ?slots⟩
    case cap => exact congrArg Nat.cast (activated_cap_toNat (Int.ofNat_le.1 hhigh))
    case slots =>
      intro a
      simp only [Nat.cast_lt]
      exact slot_construct c s a

/-! ### FRAME (R89, R91) -/

/-- FRAME has no fault in an open block (R89). -/
theorem frameChecks_pass {s : State} (hlc : s.lc = .active) (hbr : s.br ≠ 0#24) : firstFault (frameChecks s) = none := by
  simp [frameChecks, hlc, hbr]

/-- FRAME in a block whose record control is not the sentinel does no PUSH (R91). -/
theorem exec_frame_pass {s : State} (l r : Word) (hlc : s.lc = .active) (hbr : s.br ≠ 0#24) (hrec : recording s = false) :
    exec (.frame l r) s = .next (finishFrame l r s) := by
  simp only [exec, execFrame, checked_none (frameChecks_pass hlc hbr), hrec, Bool.false_eq_true, if_false]

/-- FRAME in a block whose record control is the sentinel does PUSH (R91). -/
theorem exec_frame_push {s u : State} {l r : Word} (hlc : s.lc = .active) (hbr : s.br ≠ 0#24) (hrec : recording s = true)
    (hp : push l r s = .ok u) : exec (.frame l r) s = .next (finishFrame l r u) := by
  simp only [exec, execFrame, checked_none (frameChecks_pass hlc hbr), hrec, if_true, hp]

/-- Slots after PUSH: the pair at WCUR, every other slot as before (R70). -/
theorem slot_push {s u : State} {l r : Word} (hp : push l r s = .ok u) (a : Nat) :
    u.slotL a = (if a = s.wcur.toNat then l else s.slotL a) ∧ u.slotR a = (if a = s.wcur.toNat then r else s.slotR a) := by
  obtain ⟨hslot, rfl⟩ := push_inv hp
  obtain ⟨ha, hcap, hdepth⟩ := slotCheck_inv hslot
  exact slot_memWrite (memWrite_ok l r ha hcap hdepth) a

/-- The cursors and flags after PUSH: WCUR moves on; with room RCUR and CLIP stay and FULL tells whether the cursors meet; in a full ring
RCUR moves on with WCUR, CLIP is set and FULL stays (R70, R72). -/
theorem push_cursors {s u : State} {l r : Word} (hc : 0 < s.cap.toNat) (hp : push l r s = .ok u) :
    u.wcur.toNat = (s.wcur.toNat + 1) % s.cap.toNat
      ∧ (s.full = false → u.rcur = s.rcur ∧ u.clip = s.clip ∧ (u.full = true ↔ u.wcur = s.rcur))
      ∧ (s.full = true → u.rcur.toNat = (s.rcur.toNat + 1) % s.cap.toNat ∧ u.clip = true ∧ u.full = true) := by
  obtain ⟨-, rfl⟩ := push_inv hp
  refine ⟨ringMod_succ_toNat hc _, fun hroom => ?room, fun hfull => ?full⟩
  case room => simp [rcurAfterPush, clipAfterPush, fullAfterPush, hroom]
  case full => simp [rcurAfterPush, clipAfterPush, fullAfterPush, hfull, ringMod_succ_toNat hc]

/-- Settles O44: FRAME is PUSH or nothing, then its response; what PUSH leaves is `push_cursors` and `slot_push`, and each fault is the
first check that fails. -/
theorem frameRule : Obligations.FrameRule := by
  intro l r s
  have hother : Port.ctl ≠ (Instr.frame l r).port := nofun
  have hword : commandWord 0xA#4 0#4 0#24 = 0xA0000000#32 := by decide
  refine ⟨congrArg (Packet.mk · [l, r]) hword, rfl, transact_encode_of_port_ne hother s, ?pass, ?record, ?lifecycle, ?noBlock⟩
  case pass =>
    intro hlc hbr hrec
    exact exec_frame_pass l r hlc hbr (decide_eq_false hrec)
  case record =>
    intro hs hlc hbr hrec
    have ha := hs.active hlc
    have hp := push_ok (l := l) (r := r) (hs.wcurSlot ha)
    obtain ⟨hwcur, hroom, hfull⟩ := push_cursors (hs.ring ha).1 hp
    have hslots := slot_push hp
    exact ⟨_, exec_frame_push hlc hbr (decide_eq_true hrec) hp, rfl, hwcur, hroom, hfull, hslots⟩
  case lifecycle =>
    intro hlc
    exact checked_some (by simp [frameChecks, firstFault_cons, hlc])
  case noBlock =>
    intro hlc hbr
    exact checked_some (by simp [frameChecks, firstFault_cons, hlc, hbr])

/-! ### SETUP, DEACTIVATE, TEARDOWN and BLOCK (R80, R86 to R88) -/

/-- Settles O32: SETUP has one check, the lifecycle, and its effect is written as the statement writes it. -/
theorem setupRule : Obligations.SetupRule := by
  intro d0 s
  have hword : commandWord 0x1#4 0#4 0#24 = 0x10000000#32 := by decide
  refine ⟨congrArg (Packet.mk · [d0]) hword, rfl, ?effect, ?lifecycle⟩
  case effect =>
    intro hlc
    exact checked_none (by simp [hlc])
  case lifecycle =>
    intro hlc
    exact checked_some (by simp [firstFault_cons, hlc])

/-- Settles O36: where both checks pass DEACTIVATE sets LC only; each fault is the first check that fails. -/
theorem deactivateRule : Obligations.DeactivateRule := by
  intro s
  refine ⟨rfl, rfl, ?effect, ?lifecycle, ?inBlock⟩
  case effect =>
    intro hlc hbr
    exact checked_none (by simp [deactivateChecks, hlc, hbr])
  case lifecycle =>
    intro hlc
    exact checked_some (by simp [deactivateChecks, firstFault_cons, hlc])
  case inBlock =>
    intro hlc hbr
    exact checked_some (by simp [deactivateChecks, firstFault_cons, hlc, hbr])

/-- Settles O37: TEARDOWN has one check, the lifecycle, and its effect is written as the statement writes it. -/
theorem teardownRule : Obligations.TeardownRule := by
  intro s
  refine ⟨rfl, rfl, ?effect, ?lifecycle⟩
  case effect =>
    intro hlc
    exact checked_none (by simp [hlc])
  case lifecycle =>
    intro hlc
    exact checked_some (by simp [firstFault_cons, hlc])

/-- Settles O43: the encoding and the port are the general ones; where both checks pass BLOCK latches its controls, and each fault is the
first check that fails. -/
theorem blockRule : Obligations.BlockRule := by
  intro n d0 d1 d2 s
  have hother : Port.ctl ≠ (Instr.block n d0 d1 d2).port := nofun
  refine ⟨?encoding, rfl, transact_encode_of_port_ne hother s, ?effect, ?lifecycle, ?inBlock⟩
  case encoding => exact congrArg (Packet.mk · [d0, d1, d2]) (commandWord_or_imm 0x9#4 n)
  case effect =>
    intro hlc hbr
    exact checked_none (by simp [blockChecks, hlc, hbr])
  case lifecycle =>
    intro hlc
    exact checked_some (by simp [blockChecks, firstFault_cons, hlc])
  case inBlock =>
    intro hlc hbr
    exact checked_some (by simp [blockChecks, firstFault_cons, hlc, hbr])

end Sys2Proof.Machine

/-! SUPPORT. Proofs of the statements about the inspection commands (spec/43_inspection.md): RDREG from its view table, PEEK from its checks
and the slot access of R38. -/

namespace Sys2Proof.Machine

/-! ### RDREG (R96 to R98) -/

/-- There is no view above index 10 (R97). -/
theorem view_of_gt (s : State) {n : Nat} (h : 10 < n) : view s n = none := by
  obtain ⟨m, rfl⟩ := Nat.exists_eq_add_of_le' h
  rfl

/-- RDREG of an index with a view answers that view and changes nothing (R96). -/
theorem exec_rdreg_ok {s : State} {idx : Imm24} {w : Word} (h : view s idx.toNat = some w) :
    exec (.rdreg idx) s = .next (respondOk .ctl [w] s) := by
  simp only [exec, execRdreg, h]

/-- RDREG of an index without a view is BAD_INDEX (R96). -/
theorem exec_rdreg_badIndex {s : State} {idx : Imm24} (h : view s idx.toNat = none) :
    exec (.rdreg idx) s = .next (raiseFault .ctl .badIndex s) := by
  simp only [exec, execRdreg, h]

/-- STORE_DEPTH fits the word of view 10 (R8, R97). -/
theorem storeDepth_word_toNat (p : Params) : (BitVec.ofNat 32 p.storeDepth).toNat = p.storeDepth :=
  (BitVec.toNat_ofNat p.storeDepth 32).trans (Nat.mod_eq_of_lt (Params.storeDepth_lt p))

/-- Settles O41: the answer for each index is its row of the view table, which has none above 10; STATUS and STORE_DEPTH are the words whose
numbers the statement gives. -/
theorem rdregRule : Obligations.RdregRule := by
  intro s
  refine ⟨fun idx => ⟨?encoding, rfl, ?badIndex⟩, ⟨_, exec_rdreg_ok rfl, statusView_toNat s⟩, exec_rdreg_ok rfl, exec_rdreg_ok rfl,
    exec_rdreg_ok rfl, exec_rdreg_ok rfl, exec_rdreg_ok rfl, exec_rdreg_ok rfl, exec_rdreg_ok rfl, exec_rdreg_ok rfl,
    exec_rdreg_ok rfl, _, exec_rdreg_ok rfl, storeDepth_word_toNat s.params⟩
  case encoding => exact congrArg (Packet.mk · []) (commandWord_or_imm 0x7#4 idx)
  case badIndex => exact fun h => exec_rdreg_badIndex (view_of_gt s h)

/-! ### PEEK (R99) -/

/-- PEEK of a slot of the ring, while R33 holds: its read is not stopped, because CAP is at most STORE_DEPTH (R38, R99). -/
theorem exec_peek_ok {s : State} (hs : s.RegInv) {k : Imm24} (hlc : s.lc = .configured ∨ s.lc = .active)
    (ha : s.alloc = true) (hk : k.toNat < s.cap.toNat) :
    exec (.peek k) s = .next (respondOk .ctl [s.slotL k.toNat, s.slotR k.toNat] s) := by
  obtain ⟨-, hdepth, -, -⟩ := hs.ring ha
  have hpass : firstFault (peekChecks k s) = none := by simp [peekChecks, hlc, ha, hk]
  simp only [exec, execPeek, checked_none hpass, memRead_ok ha hk (Nat.lt_of_lt_of_le hk hdepth)]

/-- Settles O42: the encoding and the port are the general ones, the effect is `exec_peek_ok`, and each fault is the first check that
fails. -/
theorem peekRule : Obligations.PeekRule := by
  intro k s hs
  refine ⟨?encoding, rfl, exec_peek_ok hs, ?lifecycle, ?noStorage, ?badIndex⟩
  case encoding => exact congrArg (Packet.mk · []) (commandWord_or_imm 0x8#4 k)
  case lifecycle =>
    intro hlc
    exact checked_some (by simp [peekChecks, firstFault_cons, hlc])
  case noStorage =>
    intro hlc ha
    have hservice := (notInService_eq_false s).2 hlc
    exact checked_some (by simp [peekChecks, firstFault_cons, hservice, ha])
  case badIndex =>
    intro hlc ha hk
    have hservice := (notInService_eq_false s).2 hlc
    exact checked_some (by simp [peekChecks, firstFault_cons, hservice, ha, hk])

end Sys2Proof.Machine

/-! SUPPORT. Proof of the statement about the effect of a contract fault (spec/60_exceptions.md): the code recorded, then the whole state. -/

namespace Sys2Proof.Machine

/-- FCODE takes the fault's code if FAULTED was 0, and keeps the recorded one if it was 1 (R104). -/
theorem raiseFault_fcode_first (port : Port) (code : FaultCode) (s : State) :
    (raiseFault port code s).fcode = if s.faulted = false then faultNum code else s.fcode := by
  rw [raiseFault_fcode]
  cases s.faulted
  case false => rfl
  case true => rfl

/-- Settles O18: FCODE is `raiseFault_fcode_first`, and on either port every other field is that of the statement's state by definition. -/
theorem faultEffect : Obligations.FaultEffect := by
  intro code s
  constructor
  case left =>
    rw [← raiseFault_fcode_first .rt code s]
    rfl
  case right =>
    rw [← raiseFault_fcode_first .ctl code s]
    rfl

end Sys2Proof.Machine

/-! SUPPORT. Proofs of the statements about the encoding (spec/30_encoding.md): which packets the decoder accepts, said once for all
commands, and from it the round trips and the agreement with the opcode map. -/

namespace Sys2Proof

/-! ### The packets of an opcode (R52, R53, R59) -/

/-- The first four checks of R59 pass, and OP names `op`. -/
def Packet.HasOpcode (p : Packet) (op : Opcode) : Prop :=
  Opcode.ofField (opField p.word) = some op ∧ rsvField p.word = 0#4 ∧ (op.usesImm = false → immField p.word = 0#24)
    ∧ p.data.length = op.dataWords

/-- Only the port is left to check, and it decides between the opcode's command and WRONG_PORT (R59). -/
theorem decode_of_hasOpcode (port : Port) {p : Packet} {op : Opcode} (h : p.HasOpcode op) :
    decode port p = if op.port = port then .ok (assemble op (immField p.word) p.data) else .error .wrongPort := by
  obtain ⟨hop, hrsv, himm, hdata⟩ := h
  have himm0 : ¬(op.usesImm = false ∧ immField p.word ≠ 0#24) := fun ⟨hu, h0⟩ => h0 (himm hu)
  simp only [decode, hop, if_neg (not_not.2 hrsv), if_neg himm0, if_neg (not_not.2 hdata), ite_not]

/-- A packet is illegal whatever the port, or it has an opcode. -/
theorem Packet.illegal_or_hasOpcode (p : Packet) : p.Illegal ∨ ∃ op, p.HasOpcode op := by
  refine or_iff_not_imp_right.2 fun hnone op hop => ?_
  by_contra hchecks
  obtain ⟨hrsv, himm, hdata⟩ := by simpa only [not_or, not_and, not_not] using hchecks
  exact hnone ⟨op, hop, hrsv, himm, hdata⟩

/-- A packet decodes on a port exactly when it has an opcode of that port. -/
theorem decode_ok_iff (port : Port) (p : Packet) : (∃ i, decode port p = .ok i) ↔ ∃ op, p.HasOpcode op ∧ op.port = port := by
  constructor
  · rintro ⟨i, hi⟩
    obtain ⟨op, hop, hrsv, himm, hdata, hport, -⟩ := decode_cases hi
    exact ⟨op, ⟨hop, hrsv, himm, hdata⟩, hport⟩
  · rintro ⟨op, hop, hport⟩
    exact ⟨_, (decode_of_hasOpcode port hop).trans (if_pos hport)⟩

/-- The decoder answers WRONG_PORT exactly when the packet has an opcode, of the other port. -/
theorem decode_wrongPort_iff (port : Port) (p : Packet) :
    decode port p = .error .wrongPort ↔ ∃ op, p.HasOpcode op ∧ op.port ≠ port := by
  constructor
  · intro h
    rcases p.illegal_or_hasOpcode with hbad | ⟨op, hop⟩
    · obtain ⟨e, he, hcode⟩ := decode_of_illegal port hbad
      cases he.symm.trans h
      cases hcode
    · refine ⟨op, hop, fun hport => ?_⟩
      rw [decode_of_hasOpcode port hop, if_pos hport] at h
      cases h
  · rintro ⟨op, hop, hport⟩
    exact (decode_of_hasOpcode port hop).trans (if_neg hport)

/-! ### The round trips -/

/-- The packet of a command has the command's opcode. -/
theorem encode_hasOpcode (i : Instr) : (encode i).HasOpcode i.opcode := by
  obtain ⟨hop, hrsv, himm, hunused, hdata⟩ := encodedFields i
  exact ⟨by rw [hop, ofField_field], hrsv, fun hu => himm.trans (hunused hu), hdata⟩

/-- A command is put together again from its opcode, its operand and its data words. -/
theorem assemble_opcode (i : Instr) : assemble i.opcode i.imm i.dataWords = i := by cases i <;> rfl

/-- Settles O10: the packet has the command's opcode, the port is the command's, and the command is put together from the fields read. -/
theorem decodeOfEncode : Obligations.DecodeOfEncode := by
  intro i
  obtain ⟨-, -, himm, -, -⟩ := encodedFields i
  calc decode i.port (encode i)
      = .ok (assemble i.opcode (immField (encode i).word) (encode i).data) :=
        (decode_of_hasOpcode i.port (encode_hasOpcode i)).trans (if_pos rfl)
    _ = .ok (assemble i.opcode i.imm i.dataWords) := by rw [himm]; rfl
    _ = .ok i := by rw [assemble_opcode]

/-- The command put together has the opcode it is put together from. -/
theorem opcode_assemble (op : Opcode) (imm : Imm24) (d : List Word) : (assemble op imm d).opcode = op := by cases op <;> rfl

/-- Its operand is the IMM24 it is put together from, which is 0 where the opcode has none (R52). -/
theorem imm_assemble {op : Opcode} {imm : Imm24} (h : op.usesImm = false → imm = 0#24) (d : List Word) :
    (assemble op imm d).imm = imm := by
  cases op with
  | drain | rdreg | peek | block => rfl
  | setup | activate | deactivate | teardown | reset | frame => exact (h rfl).symm

/-- Its data words are those it is put together from, when they are as many as R53 says. -/
theorem dataWords_assemble {op : Opcode} {d : List Word} (h : d.length = op.dataWords) (imm : Imm24) :
    (assemble op imm d).dataWords = d := by
  cases op with
  | setup => obtain ⟨a, rfl⟩ := List.length_eq_one_iff.1 h; rfl
  | frame => obtain ⟨a, b, rfl⟩ := List.length_eq_two.1 h; rfl
  | block => obtain ⟨a, b, c, rfl⟩ := List.length_eq_three.1 h; rfl
  | activate | deactivate | teardown | reset | drain | rdreg | peek => exact (List.eq_nil_of_length_eq_zero h).symm

/-- Settles O11: the word is its three fields, and each is what the encoder writes for the command put together from the packet. -/
theorem encodeOfDecode : Obligations.EncodeOfDecode := by
  intro port p i h
  obtain ⟨op, hop, hrsv, himm, hdata, hport, rfl⟩ := decode_cases h
  have hword : commandWord op.field 0#4 (immField p.word) = p.word := by
    rw [field_of_ofField hop, ← hrsv, commandWord_fields]
  constructor
  · rw [encode, opcode_assemble, imm_assemble himm, dataWords_assemble hdata, hword]
  · rw [Instr.port, opcode_assemble, hport]

/-! ### The opcode map (R56) -/

/-- The mnemonic of an opcode in the map. -/
def Opcode.mnemonic : Opcode → String
  | .setup      => "SETUP"
  | .activate   => "ACTIVATE"
  | .deactivate => "DEACTIVATE"
  | .teardown   => "TEARDOWN"
  | .reset      => "RESET"
  | .drain      => "DRAIN"
  | .rdreg      => "RDREG"
  | .peek       => "PEEK"
  | .block      => "BLOCK"
  | .frame      => "FRAME"

/-- The map's row of an opcode, from what the decoder knows of it. -/
def Opcode.row (op : Opcode) : MapRow :=
  { mnemonic := op.mnemonic, mask := if op.usesImm then 0xFF000000#32 else 0xFFFFFFFF#32
    pattern := commandWord op.field 0#4 0#24, port := op.port, dataWords := op.dataWords }

/-- The opcodes in the order of their OP values. -/
def Opcode.all : List Opcode :=
  [.setup, .activate, .deactivate, .teardown, .reset, .drain, .rdreg, .peek, .block, .frame]

theorem Opcode.mem_all (op : Opcode) : op ∈ Opcode.all := by cases op <;> decide

/-- The map lists exactly the rows of the opcodes. -/
theorem opcodeMap_eq : opcodeMap = Opcode.all.map Opcode.row := by decide

theorem opcodeMap_any (f : MapRow → Bool) : opcodeMap.any f = true ↔ ∃ op : Opcode, f op.row = true := by
  simp [opcodeMap_eq, Opcode.mem_all]

/-- A word has a row's bits under its mask when it has the opcode's fields. -/
theorem matchesWord_row (op : Opcode) (w : Word) :
    op.row.matchesWord w = true ↔ opField w = op.field ∧ rsvField w = 0#4 ∧ (op.usesImm = false → immField w = 0#24) := by
  cases hu : op.usesImm with
  | false => simp [MapRow.matchesWord, Opcode.row, hu, and_full_mask]
  | true => simp [MapRow.matchesWord, Opcode.row, hu, and_operand_mask]

/-- A row with the packet's bits and data-word count is the row of the packet's opcode. -/
theorem hasOpcode_iff_row (p : Packet) (op : Opcode) :
    p.HasOpcode op ↔ op.row.matchesWord p.word = true ∧ p.data.length = op.row.dataWords := by
  have hfield : Opcode.ofField (opField p.word) = some op ↔ opField p.word = op.field :=
    ⟨fun h => (field_of_ofField h).symm, fun h => by rw [h, ofField_field]⟩
  rw [Packet.HasOpcode, hfield, matchesWord_row]
  simp only [and_assoc, Opcode.row]

theorem wellFormed_iff (p : Packet) : p.wellFormed = true ↔ ∃ op, p.HasOpcode op := by
  simp only [Packet.wellFormed, opcodeMap_any, hasOpcode_iff_row, Bool.and_eq_true, beq_iff_eq]

theorem legalOn_iff (p : Packet) (port : Port) : p.legalOn port = true ↔ ∃ op, p.HasOpcode op ∧ op.port = port := by
  simp only [Packet.legalOn, opcodeMap_any, hasOpcode_iff_row, Bool.and_eq_true, beq_iff_eq, Opcode.row]

/-- A packet has one opcode at most. -/
theorem Packet.HasOpcode.unique {p : Packet} {op op' : Opcode} (h : p.HasOpcode op) (h' : p.HasOpcode op') : op = op' :=
  Option.some.inj (h.1.symm.trans h'.1)

/-- Settles O12: both the decoder and the map ask for the packet's opcode, which is unique, and its port. -/
theorem decoderAgreesWithMap : Obligations.DecoderAgreesWithMap := by
  intro port p
  refine ⟨by rw [decode_ok_iff, legalOn_iff], ?_⟩
  rw [decode_wrongPort_iff, wellFormed_iff, ← Bool.not_eq_true, legalOn_iff]
  constructor
  · rintro ⟨op, hop, hport⟩
    exact ⟨⟨op, hop⟩, fun ⟨op', hop', hport'⟩ => hport (hop.unique hop' ▸ hport')⟩
  · rintro ⟨⟨op, hop⟩, hno⟩
    exact ⟨op, hop, fun hport => hno ⟨op, hop, hport⟩⟩

/-- Settles O14: the RT opcodes are BLOCK's and FRAME's, and the fault is `transact_encode_of_port_ne`. -/
theorem wrongPortFaults : Obligations.WrongPortFaults := by
  intro i s
  refine ⟨?_, fun port hport => Machine.transact_encode_of_port_ne hport s⟩
  cases i <;> simp [Instr.port, Instr.opcode, Opcode.port]

/-- Settles O15: the expansions are the table's by definition, and the commands of each are listed with one port. -/
theorem pseudoExpansions : Obligations.PseudoExpansions := by
  refine ⟨fun _ => rfl, rfl, rfl, fun _ _ _ _ _ => rfl, fun q => ?_⟩
  cases q with
  | init sr => exact ⟨.ctl, List.forall_mem_cons.2 ⟨rfl, List.forall_mem_singleton.2 rfl⟩⟩
  | shutdown => exact ⟨.ctl, List.forall_mem_cons.2 ⟨rfl, List.forall_mem_singleton.2 rfl⟩⟩
  | pop => exact ⟨.ctl, List.forall_mem_singleton.2 rfl⟩
  | process n f r v fs => exact ⟨.rt, List.forall_mem_cons.2 ⟨rfl, List.forall_mem_map.2 fun _ _ => rfl⟩⟩

/-- Settles O8: eleven packets, each decoded. -/
theorem encodingExamples : Obligations.EncodingExamples := by
  unfold Obligations.EncodingExamples
  decide

/-- Settles O9: the word is the three fields side by side, and `field_toNat` reads them back. -/
theorem commandWordLayout : Obligations.CommandWordLayout := by
  refine ⟨fun op rsv imm => ?_, field_toNat⟩
  have h := field_toNat (commandWord op rsv imm)
  rw [opField_commandWord, rsvField_commandWord, immField_commandWord] at h
  omega

end Sys2Proof

/-! SUPPORT. Proofs of the statements about what every step keeps (spec/10_state.md R33, spec/60_exceptions.md R105): the induction over the
cases of a step once, then each invariant for one command's effect. -/

namespace Sys2Proof.Machine

/-! ### What every step keeps -/

/-- `P` outlives a response, a contract fault and every command's effect. -/
structure KeptByCommands (P : State → Prop) : Prop where
  respond : ∀ {s : State} (port : Port) (w : Word) (d : List Word), P s → P (respond port w d s)
  fault : ∀ {s : State} (port : Port) (c : FaultCode), P s → P (raiseFault port c s)
  effect : ∀ {i : Instr} {s u : State} {d : List Word}, Effect i s u d → P s → P u

/-- `P` outlives commands, and the taking of a packet from its queue. -/
structure KeptByPackets (P : State → Prop) : Prop extends KeptByCommands P where
  take : ∀ {s : State} (rtIn ctlIn : List Packet) (n : Nat), P s → P { s with rtIn := rtIn, ctlIn := ctlIn, arbCount := n }

/-- What the effects of commands keep, a command keeps. -/
theorem KeptByCommands.exec {P : State → Prop} (hP : KeptByCommands P) {i : Instr} {s t : State} (hs : P s)
    (h : exec i s = .next t) : P t := by
  rcases exec_next h with ⟨c, rfl⟩ | ⟨-, -, -, rfl⟩ | ⟨u, d, he, rfl⟩
  · exact hP.fault _ c hs
  · exact hP.respond _ _ _ hs
  · exact hP.respond _ _ _ (hP.effect he hs)

/-- What commands keep, a transaction keeps, whether the packet decodes or not. -/
theorem KeptByCommands.transact {P : State → Prop} (hP : KeptByCommands P) {port : Port} {p : Packet} {s t : State} (hs : P s)
    (h : transact port p s = .next t) : P t := by
  unfold Machine.transact at h
  split at h
  · cases h; exact hP.fault _ _ hs
  · exact hP.exec hs h

/-- What packets keep, the state without the packet taken keeps. -/
theorem KeptByPackets.takePacket {P : State → Prop} (hP : KeptByPackets P) {port : Port} {p : Packet} {s t : State} (hs : P s)
    (h : takePacket s = some (port, p, t)) : P t := by
  rcases takePacket_inv h with ⟨-, rest, -, rfl⟩ | ⟨-, rest, -, rfl⟩
  · exact hP.take rest s.ctlIn _ hs
  · exact hP.take s.rtIn rest _ hs

/-- What packets keep, and a power-on reset where one is asked for, every step keeps. -/
theorem KeptByPackets.step {P : State → Prop} (hP : KeptByPackets P) {s t : State} (hpower : s.powerOnReq = true → P (powerOn s))
    (hs : P s) (h : step s = .next t) : P t := by
  rcases step_next h with ⟨hreq, rfl⟩ | ⟨-, -, rfl⟩ | ⟨port, p, u, -, htake, ⟨e, -, rfl⟩ | ⟨i, -, hexec⟩⟩
  · exact hpower hreq
  · exact hs
  · exact hP.fault _ _ (hP.takePacket hs htake)
  · exact hP.exec (hP.takePacket hs htake) hexec

/-! ### The register invariants (R33) -/

/-- COUNT <= CAP, the eighth clause, follows from the others. -/
theorem State.RegInv.of_registers {s : State}
    (ring : s.alloc = true → 1 ≤ s.cap.toNat ∧ s.cap.toNat ≤ s.params.storeDepth
      ∧ s.wcur.toNat < s.cap.toNat ∧ s.rcur.toNat < s.cap.toNat)
    (full : s.full = true → s.alloc = true ∧ s.wcur = s.rcur) (active : s.lc = .active → s.alloc = true)
    (block : s.br ≠ 0#24 → s.lc = .active) (released : s.lc = .uninit ∨ s.lc = .destroyed → s.alloc = false)
    (noCode : s.faulted = false → s.fcode = 0#4) (code : s.faulted = true → 1 ≤ s.fcode.toNat ∧ s.fcode.toNat ≤ 7) :
    s.RegInv :=
  ⟨ring, full, active, block, released, noCode, code, fun ha => count_le ha (ring ha).1⟩

/-- The codes of the contract faults are 1 to 7 (R102). -/
theorem faultNum_range (c : FaultCode) : 1 ≤ (faultNum c).toNat ∧ (faultNum c).toNat ≤ 7 := by cases c <;> decide

/-- The first fault recorded has a code, and a later one leaves the record (R104). -/
theorem regInv_raiseFault {s : State} (hs : s.RegInv) (port : Port) (c : FaultCode) : (raiseFault port c s).RegInv := by
  have hcode : 1 ≤ (raiseFault port c s).fcode.toNat ∧ (raiseFault port c s).fcode.toNat ≤ 7 := by
    rw [raiseFault_fcode]
    split
    · next hf => exact hs.code hf
    · exact faultNum_range c
  exact .of_registers hs.ring hs.full hs.active hs.block hs.released nofun fun _ => hcode

/-- RCUR after a PUSH lies in the ring (R22, R70). -/
theorem rcurAfterPush_lt {full : Bool} {cap rcur : Word} (h : rcur.toNat < cap.toNat) :
    (rcurAfterPush full cap rcur).toNat < cap.toNat := by
  cases full with
  | false => exact h
  | true => exact ringMod_lt (by omega) _

/-- PUSH leaves FULL = 1 only where the cursors meet after it: an overrun moves both (R24, R70). -/
theorem cursors_meet_after_push {s : State} (hs : s.RegInv)
    (h : fullAfterPush s.full (ringMod s.cap ((s.wcur.toNat : Int) + 1)) s.rcur = true) :
    ringMod s.cap ((s.wcur.toNat : Int) + 1) = rcurAfterPush s.full s.cap s.rcur := by
  cases hf : s.full with
  | false => simpa [fullAfterPush, rcurAfterPush, hf] using h
  | true => simp [rcurAfterPush, (hs.full hf).2]

/-- PUSH keeps the register invariants (R70). -/
theorem regInv_push {s u : State} {l r : Word} (hs : s.RegInv) (hp : push l r s = .ok u) : u.RegInv := by
  obtain ⟨hslot, rfl⟩ := push_inv hp
  obtain ⟨ha, -, -⟩ := slotCheck_inv hslot
  obtain ⟨hcap, hdepth, -, hr⟩ := hs.ring ha
  exact .of_registers (fun _ => ⟨hcap, hdepth, ringMod_lt hcap _, rcurAfterPush_lt hr⟩)
    (fun h => ⟨ha, cursors_meet_after_push hs h⟩) hs.active hs.block hs.released hs.noCode hs.code

/-- A DRAIN that leaves FULL = 1 found it so and returned no frame, so RCUR is where it was (R73). -/
theorem full_of_fullAfterDrain {full : Bool} {k : Nat} (h : fullAfterDrain full k = true) : k = 0 ∧ full = true := by
  unfold fullAfterDrain at h
  split at h
  · cases h
  · exact ⟨by omega, h⟩

/-- A cursor of the ring is its own remainder. -/
theorem ringMod_self {cap cur : Word} (h : cur.toNat < cap.toNat) : ringMod cap (cur.toNat : Int) = cur := by
  rw [ringMod_eq (by omega), Nat.mod_eq_of_lt h, BitVec.ofNat_toNat, BitVec.setWidth_eq]

/-- Every command's effect keeps the register invariants. -/
theorem regInv_effect {i : Instr} {s u : State} {d : List Word} (he : Effect i s u d) (hs : s.RegInv) : u.RegInv := by
  cases he with
  | setup hlc =>
    have ha := hs.released (.inl hlc)
    have hbr : ¬ s.br ≠ 0#24 := fun h => nomatch hlc.symm.trans (hs.block h)
    exact .of_registers hs.ring hs.full nofun (fun h => absurd h hbr) (fun _ => ha) hs.noCode hs.code
  | activate hlc hc =>
    obtain ⟨hlow, hhigh⟩ := allocatable_bounds hc
    have hcap := activated_cap_toNat hhigh
    refine .of_registers (fun _ => ?ring) nofun (fun _ => rfl) (fun _ => rfl) nofun hs.noCode hs.code
    rw [hcap]
    exact ⟨hlow, hhigh, hlow, hlow⟩
  | deactivate hlc hbr => exact .of_registers hs.ring hs.full nofun (fun h => absurd hbr h) nofun hs.noCode hs.code
  | teardown hlc =>
    have hbr : ¬ s.br ≠ 0#24 := fun h => nomatch hlc.symm.trans (hs.block h)
    exact .of_registers nofun nofun nofun (fun h => absurd h hbr) (fun _ => rfl) hs.noCode hs.code
  | reset hlc ha hbr =>
    obtain ⟨hcap, hdepth, -, -⟩ := hs.ring ha
    exact .of_registers (fun _ => ⟨hcap, hdepth, hcap, hcap⟩) nofun hs.active hs.block hs.released hs.noCode hs.code
  | drain hlc ha hout =>
    obtain ⟨hcap, hdepth, hw, hr⟩ := hs.ring ha
    refine .of_registers (fun _ => ⟨hcap, hdepth, hw, ringMod_lt hcap _⟩) (fun h => ⟨ha, ?meet⟩)
      hs.active hs.block hs.released hs.noCode hs.code
    obtain ⟨hk, hf⟩ := full_of_fullAfterDrain h
    simp only [hk, Int.natCast_zero, Int.add_zero, ringMod_self hr]
    exact (hs.full hf).2
  | rdreg | peek => exact hs
  | block hlc hbr => exact .of_registers hs.ring hs.full hs.active (fun _ => hlc) hs.released hs.noCode hs.code
  | framePass hlc hbr hrec =>
    exact .of_registers hs.ring hs.full hs.active (fun _ => hlc) hs.released hs.noCode hs.code
  | framePush hlc hbr hrec hp =>
    have hu := regInv_push hs hp
    obtain ⟨-, rfl⟩ := push_inv hp
    exact .of_registers hu.ring hu.full hu.active (fun _ => hlc) hu.released hu.noCode hu.code

/-- The register invariants are kept by packets: they speak of no queue and no response. -/
theorem regInv_kept : KeptByPackets State.RegInv where
  respond _ _ _ hs := { hs with }
  fault port c hs := regInv_raiseFault hs port c
  effect := regInv_effect
  take _ _ _ hs := { hs with }

/-- With ALLOC, FULL and BR 0 and no fault recorded the register invariants ask for nothing more (R35, R119). -/
theorem regInv_powerOn (s : State) : (powerOn s).RegInv :=
  .of_registers nofun nofun nofun (fun h => absurd rfl h) (fun _ => rfl) (fun _ => rfl) nofun

/-- Settles O24: each command's effect keeps the register invariants, and so do faults, responses and a power-on reset. -/
theorem registerInvariantKept : Obligations.RegisterInvariantKept :=
  fun s _ hs h => regInv_kept.step (fun _ => regInv_powerOn s) hs h

/-! ### The store's invariant (R32, R36, R40) -/

/-- A write keeps every listed slot listed. -/
theorem isSome_find_put {m : Memory} {j : Nat} (h : (m.find j).isSome) (i : Nat) (v : Word) : ((m.put i v).find j).isSome := by
  rw [find_put]
  split
  · rfl
  · exact h

/-- A zero-fill lists every slot below its bound. -/
theorem isSome_find_zeroBelow {c j : Nat} (h : j < c) (m : Memory) : ((m.zeroBelow c).find j).isSome := by
  rw [find_zeroBelow, if_pos h]
  rfl

/-- PUSH keeps the store's invariant: its slot is below STORE_DEPTH (R39, R70). -/
theorem storeInv_push {s u : State} {l r : Word} (hs : s.StoreInv) (hp : push l r s = .ok u) : u.StoreInv := by
  obtain ⟨hslot, rfl⟩ := push_inv hp
  obtain ⟨-, -, hdepth⟩ := slotCheck_inv hslot
  exact {
    wfL := wf_put hs.wfL _ _
    wfR := wf_put hs.wfR _ _
    depthL := put_below l hs.depthL hdepth
    depthR := put_below r hs.depthR hdepth
    listedL := fun ha j hj => isSome_find_put (hs.listedL ha j hj) _ _
    listedR := fun ha j hj => isSome_find_put (hs.listedR ha j hj) _ _ }

/-- ACTIVATE keeps the store's invariant: it writes the whole ring, which lies within STORE_DEPTH (R67, R84). -/
theorem storeInv_activated {s : State} {c : Nat} (hs : s.StoreInv) (hc : c ≤ s.params.storeDepth) : (activated c s).StoreInv where
  wfL := wf_zeroBelow hs.wfL c
  wfR := wf_zeroBelow hs.wfR c
  depthL := zeroBelow_below hs.depthL hc
  depthR := zeroBelow_below hs.depthR hc
  listedL _ _ hj := isSome_find_zeroBelow (activated_cap_toNat hc ▸ hj) _
  listedR _ _ hj := isSome_find_zeroBelow (activated_cap_toNat hc ▸ hj) _

/-- Every command's effect keeps the store's invariant. -/
theorem storeInv_effect {i : Instr} {s u : State} {d : List Word} (he : Effect i s u d) (hs : s.StoreInv) : u.StoreInv := by
  cases he with
  | activate hlc hc => exact storeInv_activated hs (allocatable_bounds hc).2
  | teardown hlc => exact { hs with listedL := nofun, listedR := nofun }
  | framePush hlc hbr hrec hp => exact { storeInv_push hs hp with }
  | setup | deactivate | reset | drain | rdreg | peek | block | framePass => exact { hs with }

/-- The store's invariant is kept by packets: it speaks of no queue, no response and no fault record. -/
theorem storeInv_kept : KeptByPackets State.StoreInv where
  respond _ _ _ hs := { hs with }
  fault _ _ hs := { hs with }
  effect := storeInv_effect
  take _ _ _ hs := { hs with }

/-- After a power-on reset no slot is listed and there is no ring (R35, R119). -/
theorem storeInv_powerOn (s : State) : (powerOn s).StoreInv :=
  ⟨.nil, .nil, nofun, nofun, nofun, nofun⟩

/-- Settles O25: ACTIVATE and PUSH, which alone write the store, keep its invariant, and nothing else lists fewer slots or moves CAP. -/
theorem storeInvariantKept : Obligations.StoreInvariantKept :=
  fun s _ hs h => storeInv_kept.step (fun _ => storeInv_powerOn s) hs h

/-! ### The capacity's invariant (R20, R85) -/

/-- Every command's effect keeps CAP the capacity that SR gives: SETUP writes SR only with no storage (R80), ACTIVATE writes the capacity
into CAP. -/
theorem capInv_effect {i : Instr} {s u : State} {d : List Word} (he : Effect i s u d) (hs : s.RegInv) (hcap : s.CapInv) :
    u.CapInv := by
  cases he with
  | setup hlc => exact fun ha => nomatch (hs.released (.inl hlc)).symm.trans ha
  | activate hlc hc => exact fun _ => hc.trans (congrArg some (activated_cap_toNat (allocatable_bounds hc).2).symm)
  | teardown hlc => exact nofun
  | framePush hlc hbr hrec hp => obtain ⟨-, rfl⟩ := push_inv hp; exact hcap
  | deactivate | reset | drain | rdreg | peek | block | framePass => exact hcap

/-- The register and capacity invariants together are kept by packets. -/
theorem regInv_capInv_kept : KeptByPackets fun s => s.RegInv ∧ s.CapInv where
  respond _ _ _ := fun ⟨hreg, hcap⟩ => ⟨regInv_kept.respond _ _ _ hreg, hcap⟩
  fault _ _ := fun ⟨hreg, hcap⟩ => ⟨regInv_kept.fault _ _ hreg, hcap⟩
  effect he := fun ⟨hreg, hcap⟩ => ⟨regInv_effect he hreg, capInv_effect he hreg hcap⟩
  take _ _ _ := fun ⟨hreg, hcap⟩ => ⟨regInv_kept.take _ _ _ hreg, hcap⟩

/-- Settles O26: the two invariants are kept together, and after a power-on reset there is no storage. -/
theorem capacityInvariantKept : Obligations.CapacityInvariantKept :=
  fun s _ hs hcap h => (regInv_capInv_kept.step (fun _ => ⟨regInv_powerOn s, nofun⟩) ⟨hs, hcap⟩ h).2

/-- Settles O23: in the reset state ALLOC, FULL, BR and the fault record are 0 and no slot is listed. -/
theorem invariantsAtReset : Obligations.InvariantsAtReset :=
  ⟨.of_registers nofun nofun nofun (fun h => absurd rfl h) (fun _ => rfl) (fun _ => rfl) nofun,
    ⟨.nil, .nil, nofun, nofun, nofun, nofun⟩, nofun⟩

end Sys2Proof.Machine

/-! SUPPORT. Proofs of the statements about the step, the packets and the responses (spec/20_memory.md R45, spec/30_encoding.md R57, R59,
spec/60_exceptions.md R103 to R105, spec/70_reset_and_hazards.md R119). -/

namespace Sys2Proof.Machine

/-! ### The step and the packets (R45, R59, R117, R119) -/

/-- Settles O2: `powerOn` writes the registers one by one and empties both queues, so the step after it is idle. -/
theorem powerOnReset : Obligations.PowerOnReset := by
  intro s hreq
  exact ⟨powerOn s, if_pos hreq, rfl, rfl, rfl, rfl, rfl, rfl, rfl, rfl, rfl, rfl, rfl, rfl, rfl, rfl, rfl, rfl, rfl,
    fun _ => ⟨rfl, rfl⟩, rfl⟩

/-- A step that takes a packet is the packet's transaction on the state without it. -/
theorem step_of_takePacket {s t : State} {port : Port} {p : Packet} (hreq : s.powerOnReq = false)
    (h : takePacket s = some (port, p, t)) : step s = transact port p t := by
  simp only [step, hreq, h, Bool.false_eq_true, if_false]

/-- The transaction of a packet that decodes is its command. -/
theorem transact_of_decode_ok {port : Port} {p : Packet} {i : Instr} (h : decode port p = .ok i) (s : State) :
    transact port p s = exec i s := by
  simp only [transact, h]

/-- The transaction of a packet that does not decode is the fault of the check that failed. -/
theorem transact_of_decode_error {port : Port} {p : Packet} {e : Reject} (h : decode port p = .error e) (s : State) :
    transact port p s = .next (raiseFault port (rejectCode e) s) := by
  simp only [transact, h]

/-- Settles O3: with both queues empty no packet is taken. -/
theorem idleHoldsState : Obligations.IdleHoldsState := by
  intro s hreq hrt hctl
  simp only [step, hreq, takePacket_none.2 ⟨hrt, hctl⟩, Bool.false_eq_true, if_false]

/-- Where both ports have a packet waiting, the port taken is the free value (R45 constraint 2). -/
theorem takePacket_port {s t : State} {port : Port} {p : Packet} (h : takePacket s = some (port, p, t)) (hrt : s.rtIn ≠ [])
    (hctl : s.ctlIn ≠ []) : port = Config.arbiter s.arbCount := by
  unfold takePacket at h
  split at h
  · cases h
  · next hnil => exact absurd hnil hctl
  · next hnil _ => exact absurd hnil hrt
  · split at h
    · next harb => cases h; exact harb.symm
    · next harb => cases h; exact harb.symm

/-- Settles O4: a packet is taken, `takePacket_inv` says from which queue, and `takePacket_port` which of two. -/
theorem portOrderKept : Obligations.PortOrderKept := by
  intro s hwaiting
  obtain ⟨⟨port, p, t⟩, htake⟩ : ∃ x, takePacket s = some x :=
    Option.ne_none_iff_exists'.1 fun hnone => by simp [takePacket_none.1 hnone] at hwaiting
  rcases takePacket_inv htake with ⟨rfl, rest, hq, rfl⟩ | ⟨rfl, rest, hq, rfl⟩
  · exact ⟨.rt, p, rest, _, htake, hq, rfl, takePacket_port htake⟩
  · exact ⟨.ctl, p, rest, _, htake, hq, rfl, takePacket_port htake⟩

/-- Settles O5: the step is the packet's transaction, which is the command. -/
theorem stepRunsDecoded : Obligations.StepRunsDecoded :=
  fun _ t _ _ _ hreq htake hdecode => (step_of_takePacket hreq htake).trans (transact_of_decode_ok hdecode t)

/-- WRONG_PORT for the port check and ILLEGAL_CMD for the four others (R59, R60). -/
theorem rejectCode_eq (e : Reject) : rejectCode e = if e = .wrongPort then .wrongPort else .illegalCmd := by cases e <;> rfl

/-- Settles O6: the step is the packet's transaction, which is the fault of the check that failed. -/
theorem stepRejectsIllegal : Obligations.StepRejectsIllegal := by
  intro s t port p e hreq htake hdecode
  rw [step_of_takePacket hreq htake, transact_of_decode_error hdecode, rejectCode_eq]

/-- A table word is read as a command exactly when its packet decodes. -/
theorem decode_of_decodeTableWord {nbits w : Nat} {i : Instr} (h : decodeTableWord nbits w = some i) :
    decode (tablePort nbits w) (tablePacket nbits w) = .ok i := by
  unfold decodeTableWord at h
  split at h
  · next hdecode => cases h; exact hdecode
  · cases h

/-- Settles O7: the placed packet is taken next, on its command's port, and it decodes to the command. -/
theorem fetchWordRuns : Obligations.FetchWordRuns := by
  intro s nbits w i h
  have hdecode := decode_of_decodeTableWord h
  obtain ⟨-, hport⟩ := encodeOfDecode _ _ _ hdecode
  rw [State.withFetchWord]
  rw [← hport] at hdecode ⊢
  cases hp : i.port with
  | rt =>
    rw [hp] at hdecode
    exact (step_of_takePacket rfl (takePacket_placePacket_rt _ s)).trans (transact_of_decode_ok hdecode _)
  | ctl =>
    rw [hp] at hdecode
    exact (step_of_takePacket rfl (takePacket_placePacket_ctl _ s)).trans (transact_of_decode_ok hdecode _)

/-! ### What no command writes -/

/-- The fields that are inputs of the block, or the model's own, stand as they were (log entries 1, 3, 4, 6 and 7). -/
structure SameInputs (s t : State) : Prop where
  params : t.params = s.params
  rtIn : t.rtIn = s.rtIn
  ctlIn : t.ctlIn = s.ctlIn
  arbCount : t.arbCount = s.arbCount
  powerOnReq : t.powerOnReq = s.powerOnReq
  epoch : t.epoch = s.epoch

/-- Beside the inputs the fault record and the responses stand as they were. -/
structure SameSurroundings (s t : State) : Prop extends SameInputs s t where
  faulted : t.faulted = s.faulted
  fcode : t.fcode = s.fcode
  rtOut : t.rtOut = s.rtOut
  ctlOut : t.ctlOut = s.ctlOut

/-- A command's effect writes no input, records no fault and gives no response of its own. -/
theorem Effect.same {i : Instr} {s u : State} {d : List Word} (he : Effect i s u d) : SameSurroundings s u := by
  cases he with
  | framePush hlc hbr hrec hp =>
    obtain ⟨-, rfl⟩ := push_inv hp
    exact ⟨⟨rfl, rfl, rfl, rfl, rfl, rfl⟩, rfl, rfl, rfl, rfl⟩
  | setup | activate | deactivate | teardown | reset | drain | rdreg | peek | block | framePass =>
    exact ⟨⟨rfl, rfl, rfl, rfl, rfl, rfl⟩, rfl, rfl, rfl, rfl⟩

theorem SameInputs.refl (s : State) : SameInputs s s := ⟨rfl, rfl, rfl, rfl, rfl, rfl⟩

theorem SameInputs.trans {s t u : State} (h : SameInputs s t) (h' : SameInputs t u) : SameInputs s u :=
  ⟨h'.params.trans h.params, h'.rtIn.trans h.rtIn, h'.ctlIn.trans h.ctlIn, h'.arbCount.trans h.arbCount,
    h'.powerOnReq.trans h.powerOnReq, h'.epoch.trans h.epoch⟩

/-- No command writes an input. -/
theorem sameInputs_kept (s₀ : State) : KeptByCommands (SameInputs s₀) where
  respond _ _ _ hs := { hs with }
  fault _ _ hs := { hs with }
  effect he hs := hs.trans he.same.toSameInputs

/-- The parameters are kept by packets. -/
theorem params_kept (p : Params) : KeptByPackets fun s => s.params = p where
  respond _ _ _ hs := hs
  fault _ _ hs := hs
  effect he hs := he.same.params.trans hs
  take _ _ _ hs := hs

/-- Settles O28: neither packets nor a power-on reset write the parameters. -/
theorem parametersFixed : Obligations.ParametersFixed :=
  fun s _ h => (params_kept s.params).step (fun _ => rfl) rfl h

/-! ### Responses and faults (R57, R102 to R105) -/

/-- Settles O17: the list of the seven codes, computed. -/
theorem faultCodes : Obligations.FaultCodes := by
  unfold Obligations.FaultCodes
  decide

/-- Settles O16: `statusWord_toNat` at the three statuses; a response is by definition an addition to its port's list. -/
theorem responseFormat : Obligations.ResponseFormat :=
  ⟨statusWord_toNat, statusWord_toNat 0#2 0#4, statusWord_toNat 1#2 0#4, fun c => statusWord_toNat 2#2 (faultNum c),
    fun _ _ _ => ⟨rfl, rfl⟩, fun _ _ _ => rfl⟩

/-- A recorded fault is kept by packets: a later fault leaves the record (R105). -/
theorem faultRecord_kept (code : BitVec 4) : KeptByPackets fun s => s.faulted = true ∧ s.fcode = code where
  respond _ _ _ hs := hs
  fault _ _ := fun ⟨hfaulted, hfcode⟩ => ⟨rfl, (if_pos hfaulted).trans hfcode⟩
  effect he := fun ⟨hfaulted, hfcode⟩ => ⟨he.same.faulted.trans hfaulted, he.same.fcode.trans hfcode⟩
  take _ _ _ hs := hs

/-- Settles O19: packets keep a recorded fault, and no power-on reset is asked for. -/
theorem faultRecordSticky : Obligations.FaultRecordSticky :=
  fun s _ hf hreq h => (faultRecord_kept s.fcode).step (fun hon => nomatch hreq.symm.trans hon) ⟨hf, rfl⟩ h

/-- A response joins those of its port. -/
theorem out_respond (port : Port) (w : Word) (d : List Word) (s : State) :
    (respond port w d s).out port = s.out port ++ [⟨w, d⟩] := by cases port <;> rfl

/-- A response leaves those of the other port. -/
theorem out_respond_of_ne {port other : Port} (h : other ≠ port) (w : Word) (d : List Word) (s : State) :
    (respond port w d s).out other = s.out other := by
  cases port with
  | rt => cases other with
    | rt => exact absurd rfl h
    | ctl => rfl
  | ctl => cases other with
    | rt => rfl
    | ctl => exact absurd rfl h

/-- The responses of a port read the two lists only. -/
theorem SameSurroundings.out {s t : State} (h : SameSurroundings s t) (port : Port) : t.out port = s.out port := by
  cases port with
  | rt => exact h.rtOut
  | ctl => exact h.ctlOut

/-- A port's waiting packets read the two queues only. -/
theorem SameInputs.waiting {s t : State} (h : SameInputs s t) (port : Port) : t.waiting port = s.waiting port := by
  cases port with
  | rt => exact h.rtIn
  | ctl => exact h.ctlIn

/-- Settles O20: the three cases of `exec_next`; a command's effect leaves the fault record, and its response is OK. -/
theorem noPartialExecution : Obligations.NoPartialExecution := by
  intro i s t h
  rcases exec_next h with hfault | ⟨hi, -, -, ht⟩ | ⟨u, d, he, rfl⟩
  · exact .inl hfault
  · exact .inr (.inl ⟨hi, ht⟩)
  · exact .inr (.inr ⟨he.same.faulted, he.same.fcode, d, (out_respond ..).trans (by rw [he.same.out])⟩)

/-- The one response of a command, on its own port (R57, R58). -/
theorem exec_response {i : Instr} {s t : State} (h : exec i s = .next t) :
    ∃ r, t.out i.port = s.out i.port ++ [r]
      ∧ (r.status = okStatus ∨ (r = ⟨errAllocStatus, []⟩ ∧ i = .activate) ∨ ∃ c, r = ⟨faultStatus c, []⟩) := by
  rcases exec_next h with ⟨c, rfl⟩ | ⟨rfl, -, -, rfl⟩ | ⟨u, d, he, rfl⟩
  · exact ⟨_, out_respond .., .inr (.inr ⟨c, rfl⟩)⟩
  · exact ⟨_, out_respond .., .inr (.inl ⟨rfl, rfl⟩)⟩
  · exact ⟨_, (out_respond ..).trans (by rw [he.same.out]), .inl rfl⟩

/-- The one response of a transaction, on the packet's port (R57, R58). -/
theorem transact_response {port : Port} {p : Packet} {s t : State} (h : transact port p s = .next t) :
    ∃ r, t.out port = s.out port ++ [r]
      ∧ (r.status = okStatus ∨ (r = ⟨errAllocStatus, []⟩ ∧ decode port p = .ok .activate) ∨ ∃ c, r = ⟨faultStatus c, []⟩) := by
  cases hdecode : decode port p with
  | error e =>
    cases (transact_of_decode_error hdecode s).symm.trans h
    exact ⟨_, out_respond .., .inr (.inr ⟨_, rfl⟩)⟩
  | ok i =>
    rw [transact_of_decode_ok hdecode] at h
    obtain ⟨-, rfl⟩ := encodeOfDecode _ _ _ hdecode
    obtain ⟨r, hr, hok | ⟨herr, rfl⟩ | hfault⟩ := exec_response h
    · exact ⟨r, hr, .inl hok⟩
    · exact ⟨r, hr, .inr (.inl ⟨herr, rfl⟩)⟩
    · exact ⟨r, hr, .inr (.inr hfault)⟩

/-- A transaction gives no response on the other port (R57). -/
theorem transact_out_of_ne {port other : Port} {p : Packet} {s t : State} (hne : other ≠ port)
    (h : transact port p s = .next t) : t.out other = s.out other := by
  cases hdecode : decode port p with
  | error e =>
    cases (transact_of_decode_error hdecode s).symm.trans h
    exact out_respond_of_ne hne ..
  | ok i =>
    rw [transact_of_decode_ok hdecode] at h
    obtain ⟨-, rfl⟩ := encodeOfDecode _ _ _ hdecode
    exact exec_out_other h hne

/-! ### Every command answers while R33 holds (R48, R101) -/

/-- A checked command answers when its body does. -/
theorem checked_answers {port : Port} {checks : List (Bool × FaultCode)} {s : State} {body : Host.Outcome State Fault Refusal}
    (h : firstFault checks = none → ∃ t, body = .next t) : ∃ t, checked port checks s body = .next t := by
  rcases checked_cases port checks s body with ⟨c, -, hfault⟩ | ⟨hnone, hbody⟩
  · exact ⟨_, hfault⟩
  · rw [hbody]; exact h hnone

/-- While R33 holds every command is a next state: the slots that DRAIN, PEEK and FRAME access lie in the ring. -/
theorem exec_answers {s : State} (hs : s.RegInv) (i : Instr) : ∃ t, exec i s = .next t := by
  cases i with
  | setup | deactivate | teardown | reset | block => exact checked_answers fun _ => ⟨_, rfl⟩
  | activate =>
    refine checked_answers fun _ => ?_
    cases allocatable s.params s.sr with
    | none => exact ⟨_, rfl⟩
    | some c => exact ⟨_, rfl⟩
  | rdreg idx =>
    cases hv : view s idx.toNat with
    | none => exact ⟨_, exec_rdreg_badIndex hv⟩
    | some w => exact ⟨_, exec_rdreg_ok hv⟩
  | drain m =>
    refine checked_answers fun hpass => ?_
    obtain ⟨-, ha⟩ : notInService s = false ∧ s.alloc = true := by simpa [drainChecks] using hpass
    rw [drainCount, readFrames_unread hs ha]
    exact ⟨_, rfl⟩
  | peek k =>
    refine checked_answers fun hpass => ?_
    obtain ⟨-, ha, hk⟩ : notInService s = false ∧ s.alloc = true ∧ k.toNat < s.cap.toNat := by
      simpa [peekChecks] using hpass
    obtain ⟨-, hdepth, -, -⟩ := hs.ring ha
    rw [memRead_ok ha hk (hk.trans_le hdepth)]
    exact ⟨_, rfl⟩
  | frame l r =>
    refine checked_answers fun hpass => ?_
    obtain ⟨hlc, -⟩ : s.lc = .active ∧ inBlock s = true := by simpa [frameChecks] using hpass
    rw [push_ok (hs.wcurSlot (hs.active hlc))]
    split
    · exact ⟨_, rfl⟩
    · exact ⟨_, rfl⟩

/-- While R33 holds every transaction is a next state. -/
theorem transact_answers {s : State} (hs : s.RegInv) (port : Port) (p : Packet) : ∃ t, transact port p s = .next t := by
  cases hdecode : decode port p with
  | error e => exact ⟨_, transact_of_decode_error hdecode s⟩
  | ok i => rw [transact_of_decode_ok hdecode]; exact exec_answers hs i

/-- Settles O27: power-on and the idle step are next states, and so is every transaction while R33 holds. -/
theorem blockNeverStops : Obligations.BlockNeverStops := by
  intro s hs
  cases hreq : s.powerOnReq with
  | true => exact ⟨powerOn s, if_pos hreq⟩
  | false =>
    cases htake : takePacket s with
    | none =>
      obtain ⟨hrt, hctl⟩ := takePacket_none.1 htake
      exact ⟨s, idleHoldsState s hreq hrt hctl⟩
    | some x =>
      obtain ⟨port, p, t⟩ := x
      rw [step_of_takePacket hreq htake]
      exact transact_answers (regInv_kept.takePacket hs htake) port p

/-- A packet taken was the first on its port; the other port's packets and all responses stay (R45). -/
theorem takePacket_ports {s t : State} {port : Port} {p : Packet} (h : takePacket s = some (port, p, t)) :
    s.waiting port = p :: t.waiting port ∧ (∀ other, other ≠ port → t.waiting other = s.waiting other)
      ∧ ∀ q, t.out q = s.out q := by
  rcases takePacket_inv h with ⟨rfl, rest, hq, rfl⟩ | ⟨rfl, rest, hq, rfl⟩
  · refine ⟨hq, fun other hne => ?_, fun q => by cases q <;> rfl⟩
    cases other with
    | rt => exact absurd rfl hne
    | ctl => rfl
  · refine ⟨hq, fun other hne => ?_, fun q => by cases q <;> rfl⟩
    cases other with
    | rt => rfl
    | ctl => exact absurd rfl hne

/-- Settles O21: the transaction answers, gives one response on its port, and touches neither queue; taking the packet takes it from its
own queue. -/
theorem oneResponsePerPacket : Obligations.OneResponsePerPacket := by
  intro s t port p hs hreq htake
  obtain ⟨hfirst, hrest, hout⟩ := takePacket_ports htake
  obtain ⟨u, hu⟩ := transact_answers (regInv_kept.takePacket hs htake) port p
  obtain ⟨r, hr, hstatus⟩ := transact_response hu
  have hin := (sameInputs_kept t).transact (.refl t) hu
  refine ⟨u, r, (step_of_takePacket hreq htake).trans hu, hr.trans (by rw [hout]), fun other hne => ⟨?_, ?_⟩,
    hfirst.trans (by rw [hin.waiting]), hstatus⟩
  · exact (transact_out_of_ne hne hu).trans (hout other)
  · exact (hin.waiting other).trans (hrest other hne)

end Sys2Proof.Machine

/-! SUPPORT. Proofs of the two statements that compare runs from states that differ in fields no command reads: the latched format and save
controls (spec/42_stream_processor.md R93), and the packets that wait (spec/20_memory.md R45). -/

namespace Sys2Proof.Machine

/-! ### Changes that no command sees -/

/-- A change of the latched format and save controls, of the waiting packets and of the choice counter. -/
structure InertChange where
  format   : Word → Word
  save     : Word → Word
  rtIn     : List Packet → List Packet
  ctlIn    : List Packet → List Packet
  arbCount : Nat → Nat

/-- The state after the change. -/
def InertChange.apply (g : InertChange) (s : State) : State :=
  { s with
    ctlFmt := g.format s.ctlFmt, ctlSave := g.save s.ctlSave
    rtIn := g.rtIn s.rtIn, ctlIn := g.ctlIn s.ctlIn, arbCount := g.arbCount s.arbCount }

/-- An outcome with its next state changed. -/
def mapNext (f : State → State) : Host.Outcome State Fault Refusal → Host.Outcome State Fault Refusal
  | .next t => .next (f t)
  | .fault e => .fault e
  | .refused r => .refused r

section
variable (g : InertChange)

/-- A command whose body does not see the change does not see it. -/
theorem InertChange.checked {port : Port} {checks : List (Bool × FaultCode)} {s : State}
    {body body' : Host.Outcome State Fault Refusal} (h : body' = mapNext g.apply body) :
    checked port checks (g.apply s) body' = mapNext g.apply (checked port checks s body) := by
  subst h
  unfold Machine.checked
  cases firstFault checks with
  | none => rfl
  | some c => rfl

/-- Of the views, only 8 and 9 can see the change (R96, R97). -/
theorem InertChange.view (s : State) (n : Nat) (hfmt : n = 8 → g.format s.ctlFmt = s.ctlFmt)
    (hsav : n = 9 → g.save s.ctlSave = s.ctlSave) : view (g.apply s) n = view s n := by
  match n with
  | 8 => exact congrArg some (hfmt rfl)
  | 9 => exact congrArg some (hsav rfl)
  | 0 | 1 | 2 | 3 | 4 | 5 | 6 | 7 | 10 | _ + 11 => rfl

/-- The reads of DRAIN do not see the change. -/
theorem InertChange.readFrames (s : State) (j k : Nat) : readFrames (g.apply s) j k = readFrames s j k := by
  induction k generalizing j with
  | zero => rfl
  | succ k ih =>
    simp only [Machine.readFrames, ih]
    rfl

/-- PUSH does not see the change. -/
theorem InertChange.push (s : State) (l r : Word) : push l r (g.apply s) = (push l r s).map g.apply := by
  cases hslot : slotCheck s s.wcur.toNat with
  | error e =>
    have hslot' : slotCheck (g.apply s) (g.apply s).wcur.toNat = .error e := hslot
    simp only [Machine.push, memWrite, hslot, hslot', Except.map]
  | ok =>
    rw [push_ok hslot, push_ok (s := g.apply s) hslot]
    rfl

/-- A command that does not read or write what is changed does the same, and leaves the change as it is. -/
theorem InertChange.exec {i : Instr}
    (hi : (∀ w, g.format w = w ∧ g.save w = w) ∨ (i ≠ .rdreg 8#24 ∧ i ≠ .rdreg 9#24 ∧ ∀ n f r v, i ≠ .block n f r v)) (s : State) :
    exec i (g.apply s) = mapNext g.apply (exec i s) := by
  cases i with
  | setup | deactivate | teardown | reset =>
    change Machine.checked .ctl _ _ _ = mapNext g.apply (Machine.checked .ctl _ _ _)
    exact g.checked rfl
  | activate =>
    refine g.checked (port := .ctl) (checks := [(decide (s.lc ≠ .configured), .lifecycle)]) ?_
    rw [show allocatable (g.apply s).params (g.apply s).sr = allocatable s.params s.sr from rfl]
    cases allocatable s.params s.sr with
    | none => rfl
    | some c => rfl
  | drain m =>
    refine g.checked (port := .ctl) (checks := drainChecks s) ?_
    rw [g.readFrames, show drainCount m (g.apply s) = drainCount m s from rfl]
    cases Machine.readFrames s 0 (drainCount m s) with
    | error e => rfl
    | ok out => rfl
  | rdreg idx =>
    have hview : Machine.view (g.apply s) idx.toNat = Machine.view s idx.toNat := by
      refine g.view s _ (fun h8 => ?_) (fun h9 => ?_)
      · rcases hi with hid | ⟨hne, -, -⟩
        · exact (hid _).1
        · exact absurd (congrArg Instr.rdreg (BitVec.eq_of_toNat_eq h8)) hne
      · rcases hi with hid | ⟨-, hne, -⟩
        · exact (hid _).2
        · exact absurd (congrArg Instr.rdreg (BitVec.eq_of_toNat_eq h9)) hne
    cases hv : Machine.view s idx.toNat with
    | none => rw [exec_rdreg_badIndex hv, exec_rdreg_badIndex (hview.trans hv)]; rfl
    | some w => rw [exec_rdreg_ok hv, exec_rdreg_ok (hview.trans hv)]; rfl
  | peek k =>
    refine g.checked (port := .ctl) (checks := peekChecks k s) ?_
    rw [show memRead (g.apply s) k.toNat = memRead s k.toNat from rfl]
    cases memRead s k.toNat with
    | error e => rfl
    | ok x => rfl
  | block n f r v =>
    rcases hi with hid | ⟨-, -, hne⟩
    · refine g.checked (port := .rt) (checks := blockChecks s) ?_
      simp only [mapNext, InertChange.apply, hid]
      rfl
    · exact absurd rfl (hne n f r v)
  | frame l r =>
    refine g.checked (port := .rt) (checks := frameChecks s) ?_
    rw [show recording (g.apply s) = recording s from rfl, g.push]
    cases recording s with
    | false => rfl
    | true =>
      cases Machine.push l r s with
      | error e => rfl
      | ok u => rfl

end

/-- Settles O52: the change that sets the two controls is one that the command does not see. -/
theorem formatAndSaveInert : Obligations.FormatAndSaveInert := by
  intro i s fmt sav h8 h9 hblock
  refine (InertChange.exec ⟨fun _ => fmt, fun _ => sav, id, id, id⟩ (.inr ⟨h8, h9, hblock⟩) s).trans ?_
  cases exec i s <;> rfl

/-! ### A run and its order (R45, R133) -/

/-- No packet waits and the choice counter is `n` further on. -/
def drainQueues (n : Nat) : InertChange := ⟨id, id, fun _ => [], fun _ => [], (· + n)⟩

/-- A transaction does not see the packets that wait. -/
theorem transact_drainQueues (n : Nat) (port : Port) (p : Packet) (s : State) :
    transact port p ((drainQueues n).apply s) = mapNext (drainQueues n).apply (transact port p s) := by
  cases hdecode : decode port p with
  | error e => rw [transact_of_decode_error hdecode, transact_of_decode_error hdecode]; rfl
  | ok i =>
    rw [transact_of_decode_ok hdecode, transact_of_decode_ok hdecode]
    exact (drainQueues n).exec (.inl fun _ => ⟨rfl, rfl⟩) s

/-- What RunIsAnInterleaving says of a run of `n` steps from `s`: the total order of its packets and the state it ends in. -/
structure Interleaving (n : Nat) (s : State) (order : List (Port × Packet)) (t : State) : Prop where
  packets : ∀ port, packetsOf port order = s.waiting port
  run : runSteps n s = .next t
  transactions : transactAll order ((drainQueues n).apply s) = .next t
  ended : t.Ended
  responses : ∀ port, (t.out port).length = (s.out port).length + (s.waiting port).length

/-- The packets waiting on both ports. -/
def waitingCount (s : State) : Nat := s.rtIn.length + s.ctlIn.length

/-- With no packet waiting the run has ended. -/
theorem interleaving_nil {s : State} (h : takePacket s = none) : Interleaving 0 s [] s := by
  obtain ⟨hrt, hctl⟩ := takePacket_none.1 h
  have hempty : ∀ port, s.waiting port = [] := fun port => by
    cases port with
    | rt => exact hrt
    | ctl => exact hctl
  exact {
    packets := fun port => (hempty port).symm
    run := rfl
    transactions := by
      have hsame : (drainQueues 0).apply s = s := by
        obtain ⟨⟩ := s
        cases hrt
        cases hctl
        rfl
      rw [hsame]
      rfl
    ended := ⟨hrt, hctl⟩
    responses := fun port => by rw [hempty]; rfl }

/-- The packet taken, then the order of the rest of the run. -/
theorem interleaving_cons {n : Nat} {s u v t : State} {port : Port} {p : Packet} {order : List (Port × Packet)}
    (hreq : s.powerOnReq = false) (htake : takePacket s = some (port, p, u)) (hv : transact port p u = .next v)
    (h : Interleaving n v order t) : Interleaving (n + 1) s ((port, p) :: order) t := by
  obtain ⟨hfirst, hrest, hout⟩ := takePacket_ports htake
  have hin := (sameInputs_kept u).transact (.refl u) hv
  obtain ⟨r, hr, -⟩ := transact_response hv
  constructor
  case packets =>
    intro q
    by_cases hq : q = port
    · subst hq
      rw [hfirst, ← hin.waiting, ← h.packets]
      simp [packetsOf]
    · rw [← hrest q hq, ← hin.waiting, ← h.packets]
      simp [packetsOf, Ne.symm hq]
  case run => simp only [runSteps, step_of_takePacket hreq htake, hv, h.run]
  case transactions =>
    have hstart : (drainQueues (n + 1)).apply s = (drainQueues n).apply u := by
      rcases takePacket_inv htake with ⟨-, rest, -, rfl⟩ | ⟨-, rest, -, rfl⟩
      · simp [drainQueues, InertChange.apply, Nat.add_assoc, Nat.add_comm 1 n]
      · simp [drainQueues, InertChange.apply, Nat.add_assoc, Nat.add_comm 1 n]
    simp only [transactAll, hstart, transact_drainQueues, hv, mapNext, h.transactions]
  case ended => exact h.ended
  case responses =>
    intro q
    rw [h.responses]
    by_cases hq : q = port
    · subst hq
      rw [hfirst, hr, hout, hin.waiting]
      simp [Nat.add_assoc, Nat.add_comm 1]
    · rw [transact_out_of_ne hq hv, hout, hin.waiting, hrest q hq]

theorem waitingCount_eq_zero {s : State} : waitingCount s = 0 ↔ takePacket s = none := by
  rw [takePacket_none, waitingCount, Nat.add_eq_zero_iff, List.length_eq_zero_iff, List.length_eq_zero_iff]

/-- A packet taken leaves one less waiting. -/
theorem waitingCount_takePacket {s t : State} {port : Port} {p : Packet} (h : takePacket s = some (port, p, t)) :
    waitingCount s = waitingCount t + 1 := by
  rcases takePacket_inv h with ⟨-, rest, hq, rfl⟩ | ⟨-, rest, hq, rfl⟩
  · simp only [waitingCount, hq, List.length_cons]; omega
  · simp only [waitingCount, hq, List.length_cons]; omega

/-- A run of as many steps as packets wait is an interleaving: by induction on their number. -/
theorem exists_interleaving {s : State} (hs : s.RegInv) (hreq : s.powerOnReq = false) :
    ∃ order t, Interleaving (waitingCount s) s order t := by
  induction hn : waitingCount s generalizing s with
  | zero => exact ⟨[], s, interleaving_nil (waitingCount_eq_zero.1 hn)⟩
  | succ n ih =>
    obtain ⟨⟨port, p, u⟩, htake⟩ : ∃ x, takePacket s = some x :=
      Option.ne_none_iff_exists'.1 fun hnone => by rw [waitingCount_eq_zero.2 hnone] at hn; cases hn
    have hu := regInv_kept.takePacket hs htake
    have hureq : u.powerOnReq = false := by
      rcases takePacket_inv htake with ⟨-, rest, -, rfl⟩ | ⟨-, rest, -, rfl⟩
      · exact hreq
      · exact hreq
    obtain ⟨v, hv⟩ := transact_answers hu port p
    have hin := (sameInputs_kept u).transact (.refl u) hv
    have hcount : waitingCount v = n := by
      have htaken := waitingCount_takePacket htake
      rw [waitingCount, hin.rtIn, hin.ctlIn, ← waitingCount]
      omega
    obtain ⟨order, t, ht⟩ := ih (regInv_kept.transact hu hv) (hin.powerOnReq.trans hureq) hcount
    exact ⟨_, t, interleaving_cons hreq htake hv ht⟩

/-- Settles O22: the run of as many steps as packets wait is `exists_interleaving`'s. -/
theorem runIsAnInterleaving : Obligations.RunIsAnInterleaving := by
  intro s hs hreq
  obtain ⟨order, t, h⟩ := exists_interleaving hs hreq
  exact ⟨order, t, h.packets .rt, h.packets .ctl, h.run, h.transactions, h.ended, h.responses⟩

end Sys2Proof.Machine

/-! SUPPORT. Proofs of the statements about the derived views: COUNT and FULL (spec/10_state.md R24, R27), and the capacity of a sample rate
(spec/42_stream_processor.md R83). -/

namespace Sys2Proof.Machine

/-! ### COUNT and FULL (R24, R27) -/

/-- Settles O29: the three cases of COUNT are those of its definition. -/
theorem countFormula : Obligations.CountFormula :=
  fun _ => ⟨fun ha => congrArg BitVec.toNat (count_unallocated ha), fun ha hf => congrArg BitVec.toNat (count_full ha hf), count_not_full⟩

/-- Settles O30: FULL = 1 gives COUNT = CAP by definition, and FULL = 0 leaves room by `count_lt`. -/
theorem fullMeansCountIsCap : Obligations.FullMeansCountIsCap := by
  intro s hs
  refine ⟨fun ha => ⟨count_full ha, fun hcount => ?_⟩, fun ha => ?_⟩
  · by_contra hf
    have hroom := count_lt hs ha (Bool.eq_false_iff.2 hf)
    rw [hcount] at hroom
    exact Nat.lt_irrefl _ hroom
  · by_contra hf
    have halloc := (hs.full (Bool.eq_true_of_not_eq_false hf)).1
    cases ha.symm.trans halloc

/-! ### The capacity (R12, R83) -/

/-- The significand of a finite pattern without its sign, in units of the last fraction bit (R12). -/
def magnitude (w : Word) : Nat :=
  let e := (w.extractLsb' 23 8).toNat
  let f := (w.extractLsb' 0 23).toNat
  if e = 0 then f else 2 ^ 23 + f

/-- The significand with its sign. -/
def significand (w : Word) : Int := if w.msb then -(magnitude w : Int) else magnitude w

/-- The exponent of a finite pattern, that of a subnormal being 1 (R12). -/
def exponent (w : Word) : Nat :=
  let e := (w.extractLsb' 23 8).toNat
  if e = 0 then 1 else e

/-- The last fraction bit stands for 2^(exponent - 150). -/
theorem binary32_finite {w : Word} (h : (w.extractLsb' 23 8).toNat ≠ 255) :
    ∃ num : Int, ∃ den : Nat, binary32 w = some (num, den)
      ∧ (num : ℚ) / (den : ℚ) = significand w * 2 ^ ((exponent w : ℤ) - 150) := by
  have hsplit : binary32 w = if 150 ≤ exponent w then some (significand w * 2 ^ (exponent w - 150), 1)
      else some (significand w, 2 ^ (150 - exponent w)) := if_neg h
  rw [hsplit]
  split
  · next hle =>
    refine ⟨_, _, rfl, ?_⟩
    obtain ⟨k, hk⟩ := Nat.exists_eq_add_of_le hle
    have hz : (exponent w : ℤ) - 150 = k := by omega
    rw [hz, hk]
    simp
  · next hlt =>
    refine ⟨_, _, rfl, ?_⟩
    have hz : (exponent w : ℤ) - 150 = -((150 - exponent w : Nat) : ℤ) := by omega
    rw [hz, zpow_neg, zpow_natCast, div_eq_mul_inv, Nat.cast_pow, Nat.cast_ofNat]

/-- The capacity of a finite pattern: the quotient of integers is the floor of the quotient of rationals. -/
theorem capacityOf_finite {w : Word} (h : (w.extractLsb' 23 8).toNat ≠ 255) (p : Params) :
    capacityOf p w = some ⌊(significand w * 2 ^ ((exponent w : ℤ) - 150) : ℚ) * ((p.durNum : ℚ) / (p.durDen : ℚ))⌋ := by
  obtain ⟨num, den, hbin, hval⟩ := binary32_finite h
  have hfloor : ⌊((num * p.durNum : ℤ) : ℚ) / ((den * p.durDen : ℕ) : ℚ)⌋ = num * p.durNum / ((den * p.durDen : ℕ) : ℤ) :=
    Rat.floor_intCast_div_natCast _ _
  rw [← hval, div_mul_div_comm]
  simp only [capacityOf, hbin, ← hfloor]
  push_cast
  rfl

/-- The fields of a pattern in natural arithmetic (R12). -/
theorem pattern_fields (w : Word) :
    (w.extractLsb' 23 8).toNat = w.toNat / 2 ^ 23 % 2 ^ 8 ∧ (w.extractLsb' 0 23).toNat = w.toNat % 2 ^ 23
      ∧ (w.msb = true ↔ w.toNat / 2 ^ 31 = 1) := by
  have hlt := w.isLt
  refine ⟨?_, ?_, ?_⟩
  · rw [BitVec.extractLsb'_toNat, Nat.shiftRight_eq_div_pow]
  · rw [BitVec.extractLsb'_toNat, Nat.shiftRight_zero]
  · rw [BitVec.msb_eq_decide, decide_eq_true_eq]
    omega

/-- The value of a finite pattern as the standard writes it, subnormal or normal, in units of the last fraction bit (R12). -/
theorem magnitude_mul (w : Word) :
    (magnitude w : ℚ) * 2 ^ ((exponent w : ℤ) - 150)
      = if w.toNat / 2 ^ 23 % 2 ^ 8 = 0 then ((w.toNat % 2 ^ 23 : ℕ) : ℚ) / 2 ^ 23 * 2 ^ (-126 : ℤ)
        else (1 + ((w.toNat % 2 ^ 23 : ℕ) : ℚ) / 2 ^ 23) * 2 ^ (((w.toNat / 2 ^ 23 % 2 ^ 8 : ℕ) : ℤ) - 127) := by
  obtain ⟨he, hf, -⟩ := pattern_fields w
  simp only [magnitude, exponent, he, hf]
  generalize w.toNat / 2 ^ 23 % 2 ^ 8 = e
  generalize w.toNat % 2 ^ 23 = f
  split
  · have hpow : (2 : ℚ) ^ (((1 : ℕ) : ℤ) - 150) = 2 ^ (-126 : ℤ) / 2 ^ 23 := by norm_num
    rw [hpow]
    ring
  · have hpow : (2 : ℚ) ^ ((e : ℤ) - 127) = 2 ^ ((e : ℤ) - 150) * 2 ^ 23 := by
      rw [← zpow_natCast (2 : ℚ) 23, ← zpow_add₀ two_ne_zero]
      congr 1
      omega
    rw [hpow]
    push_cast
    ring

/-- Settles O31: a pattern with exponent field 255 has no value; of every other the value is its significand times the power of two that its
exponent names. -/
theorem capacityIsExactFloor : Obligations.CapacityIsExactFloor := by
  intro p sr e f sign value
  obtain ⟨he, -, hsign⟩ := pattern_fields sr
  have hvalue : value = significand sr * 2 ^ ((exponent sr : ℤ) - 150) := by
    have hsigned : (significand sr : ℚ) = sign * magnitude sr := by
      simp only [significand, sign, ← hsign]
      split <;> simp
    rw [hsigned, mul_assoc, magnitude_mul, mul_ite]
    simp only [value, mul_assoc]
    rfl
  split
  · next h255 =>
    have hbin : binary32 sr = none := if_pos (he.trans h255)
    simp only [capacityOf, hbin]
  · next hfin => rw [capacityOf_finite (fun h => hfin (he.symm.trans h)), hvalue]

end Sys2Proof.Machine

/-! SUPPORT. Proofs of the statements about what commands write and leave (spec/10_state.md R17 to R32, spec/42_stream_processor.md R79, R84,
R85, R90), from the list of the commands' effects. -/

namespace Sys2Proof.Machine

/-! ### The registers (R17 to R31) -/

/-- A fault that changes the record is the first one (R104). -/
theorem raiseFault_record_first {port : Port} {c : FaultCode} {s : State}
    (h : (raiseFault port c s).faulted ≠ s.faulted ∨ (raiseFault port c s).fcode ≠ s.fcode) : s.faulted = false := by
  by_contra hf
  have hf := Bool.eq_true_of_not_eq_false hf
  rcases h with h | h
  · exact h hf.symm
  · exact h (if_pos hf)

/-- Settles O46: a fault's state has every register but the record as it was, ERR_ALLOC's every register, and an effect's are listed. -/
theorem registerWriters : Obligations.RegisterWriters := by
  intro i s t h
  obtain ⟨hparams, hrtIn, hctlIn, harb, hreq, hepoch⟩ := (sameInputs_kept s).exec (.refl s) h
  simp only [hparams, hrtIn, hctlIn, harb, hreq, hepoch, and_self, and_true]
  rcases exec_next h with ⟨c, rfl⟩ | ⟨rfl, -, -, rfl⟩ | ⟨u, d, he, rfl⟩
  · refine ⟨absurd rfl, absurd rfl, absurd rfl, absurd rfl, absurd rfl, absurd rfl, absurd rfl, absurd rfl, absurd rfl, ?_, ?_⟩
    · simp
    · exact fun hrecord => ⟨raiseFault_record_first hrecord, c, rfl⟩
  · simp
  · have hfaulted := he.same.faulted
    have hfcode := he.same.fcode
    cases he with
    | framePush hlc hbr hrec hp =>
      obtain ⟨-, rfl⟩ := push_inv hp
      simp
    | setup | activate | deactivate | teardown | reset | drain | rdreg | peek | block | framePass => simp [activated]

/-! ### The store (R32, R78) -/

/-- Settles O47: PUSH writes the slot WCUR, in the ring, CONSTRUCT the slots below the new CAP, and no other effect writes the store. -/
theorem storeWriters : Obligations.StoreWriters := by
  intro i s t h a hne
  rcases exec_next h with ⟨c, rfl⟩ | ⟨-, -, -, rfl⟩ | ⟨u, d, he, rfl⟩
  · exact absurd rfl (hne.resolve_left (absurd rfl))
  · exact absurd rfl (hne.resolve_left (absurd rfl))
  · cases he with
    | @activate _ c hlc hc =>
      refine .inr ⟨rfl, ?_⟩
      by_contra hout
      have hcap := activated_cap_toNat (allocatable_bounds hc).2
      have hslots := slot_construct c s a
      rw [if_neg (hcap ▸ hout), if_neg (hcap ▸ hout)] at hslots
      exact hne.elim (absurd hslots.1) (absurd hslots.2)
    | framePush hlc hbr hrec hp =>
      obtain ⟨-, hcap, -⟩ := slotCheck_inv (push_inv hp).1
      have ha : a = s.wcur.toNat := by
        by_contra hout
        have hslots := slot_push hp a
        rw [if_neg hout, if_neg hout] at hslots
        exact hne.elim (absurd hslots.1) (absurd hslots.2)
      exact .inl ⟨⟨_, _, rfl⟩, ha, ha ▸ hcap⟩
    | setup | deactivate | teardown | reset | drain | rdreg | peek | block | framePass =>
      exact absurd rfl (hne.resolve_left (absurd rfl))

/-! ### The lifecycle (R17, R79, R123) -/

/-- Settles O48: of the effects only the four lifecycle commands' write LC, each from the state its check asks for. -/
theorem lifecycleEdges : Obligations.LifecycleEdges := by
  intro i s t h hne
  rcases exec_next h with ⟨c, rfl⟩ | ⟨-, -, -, rfl⟩ | ⟨u, d, he, rfl⟩
  · exact absurd rfl hne
  · exact absurd rfl hne
  · cases he with
    | setup hlc => exact .inl ⟨hlc, rfl, _, rfl⟩
    | activate hlc hc => exact .inr (.inl ⟨hlc, rfl, rfl⟩)
    | deactivate hlc hbr => exact .inr (.inr (.inl ⟨hlc, rfl, rfl⟩))
    | teardown hlc => exact .inr (.inr (.inr ⟨hlc, rfl, rfl⟩))
    | framePush hlc hbr hrec hp => obtain ⟨-, rfl⟩ := push_inv hp; exact absurd rfl hne
    | reset | drain | rdreg | peek | block | framePass => exact absurd rfl hne

/-- In DESTROYED the first check of every command but RDREG fails (R79). -/
theorem exec_destroyed {i : Instr} {s : State} (hlc : s.lc = .destroyed) (hi : ∀ idx, i ≠ .rdreg idx) :
    exec i s = .next (raiseFault i.port .lifecycle s) := by
  have hservice := (notInService_eq_true s).2 (.inr hlc)
  cases i with
  | rdreg idx => exact absurd rfl (hi idx)
  | setup | activate | deactivate | teardown | block | frame =>
    exact checked_some (by simp [deactivateChecks, blockChecks, frameChecks, firstFault_cons, hlc])
  | reset | drain | peek => exact checked_some (by simp [resetChecks, drainChecks, peekChecks, firstFault_cons, hservice])

/-- DESTROYED is kept by packets: of the effects only RDREG's starts there, and it writes nothing. -/
theorem destroyed_kept : KeptByPackets fun s => s.lc = .destroyed where
  respond _ _ _ hs := hs
  fault _ _ hs := hs
  effect {i s u d} he hs := by
    cases he with
    | rdreg => exact hs
    | setup hlc | activate hlc | deactivate hlc | teardown hlc | block hlc | framePass hlc | framePush hlc =>
      cases hlc.symm.trans hs
    | reset hlc | drain hlc | peek hlc =>
      rcases hlc with hlc | hlc <;> cases hlc.symm.trans hs
  take _ _ _ hs := hs

/-- Settles O49: every command but RDREG faults in DESTROYED, and packets keep it. -/
theorem destroyedIsTerminal : Obligations.DestroyedIsTerminal :=
  ⟨fun _ _ hlc hi => exec_destroyed hlc hi,
    fun _ _ hlc hreq h => destroyed_kept.step (fun hon => nomatch hreq.symm.trans hon) hlc h⟩

/-- Settles O51: a block in progress is in ACTIVE with storage (R33), so the lifecycle check of DEACTIVATE and RESET passes and their block
check fails; the other three fail the lifecycle check. -/
theorem lifecycleRefusedInBlock : Obligations.LifecycleRefusedInBlock := by
  intro s d0 hs hbr
  have hlc := hs.block hbr
  have ha := hs.active hlc
  obtain ⟨-, -, -, -, hdeactivate⟩ := deactivateRule s
  obtain ⟨-, -, -, -, -, hreset⟩ := resetRule s
  obtain ⟨-, -, hactivate, -⟩ := activateRule s
  obtain ⟨-, -, -, hsetup⟩ := setupRule d0 s
  obtain ⟨-, -, -, hteardown⟩ := teardownRule s
  have hother : s.lc ≠ .configured ∧ s.lc ≠ .uninit := by rw [hlc]; exact ⟨nofun, nofun⟩
  exact ⟨hdeactivate hlc hbr, hreset (.inr hlc) ha hbr, hactivate hother.1, hsetup hother.2, hteardown hother.1⟩

/-! ### CLIP (R25, R72) -/

/-- PUSH sets CLIP on a full ring and leaves it otherwise (R70, R72). -/
theorem push_clip {s u : State} {l r : Word} (hp : push l r s = .ok u) : u.clip = (s.clip || s.full) := by
  obtain ⟨-, rfl⟩ := push_inv hp
  rfl

/-- Settles O50: PUSH sets CLIP exactly on a full ring, DoReset clears it, and no other effect writes it. -/
theorem clipSetOnlyByOverrun : Obligations.ClipSetOnlyByOverrun := by
  intro i s t h
  have same : t.clip = s.clip →
      (s.clip = false → t.clip = true → s.full = true ∧ recording s = true ∧ ∃ l r, i = .frame l r)
        ∧ (s.clip = true → t.clip = false → i = .reset ∨ i = .activate) := by
    intro heq
    rw [heq]
    exact ⟨fun h0 h1 => absurd h1 (by simp [h0]), fun h1 h0 => absurd h1 (by simp [h0])⟩
  rcases exec_next h with ⟨c, rfl⟩ | ⟨-, -, -, rfl⟩ | ⟨u, d, he, rfl⟩
  · exact same rfl
  · exact same rfl
  · cases he with
    | activate => exact ⟨fun _ => nofun, fun _ _ => .inr rfl⟩
    | reset => exact ⟨fun _ => nofun, fun _ _ => .inl rfl⟩
    | @framePush _ u _ _ hlc hbr hrec hp =>
      have hclip : u.clip = (s.clip || s.full) := push_clip hp
      by_cases hfull : s.full = true
      · refine ⟨fun _ _ => ⟨hfull, hrec, _, _, rfl⟩, fun _ h0 => ?_⟩
        rw [hfull, Bool.or_true] at hclip
        cases hclip.symm.trans h0
      · rw [Bool.eq_false_iff.2 hfull, Bool.or_false] at hclip
        exact same hclip
    | setup | deactivate | teardown | drain | rdreg | peek | block | framePass => exact same rfl

/-! ### ACTIVATE again, RESET again (R69, R84, R85) -/

/-- Settles O34: the answer tells that there is no capacity, and ERR_ALLOC changes neither LC nor SR. -/
theorem failedActivateRepeats : Obligations.FailedActivateRepeats := by
  intro s t hlc h ht
  have hnone : allocatable s.params s.sr = none := by
    cases hcap : allocatable s.params s.sr with
    | none => rfl
    | some c =>
      cases (exec_activate_ok hlc hcap).symm.trans h
      have hlc' : Lifecycle.active = s.lc := congrArg State.lc ht
      cases hlc'.trans hlc
  subst ht
  obtain ⟨-, -, hteardown, -⟩ := teardownRule (respond .ctl errAllocStatus [] s)
  exact ⟨exec_activate_errAlloc hlc hnone, _, hteardown hlc, rfl⟩

/-- With both cursors 0 and FULL = 0 no frame of an allocated ring is unread (R27, R76). -/
theorem unread_of_reset {s : State} (ha : s.alloc = true) (hc : 0 < s.cap.toNat) (hw : s.wcur = 0#32) (hr : s.rcur = 0#32)
    (hf : s.full = false) : unread s = [] := by
  have hcount := count_not_full ha hf hc
  rw [hw, hr, sub_self, Int.zero_emod] at hcount
  rw [unread_eq, Int.natCast_eq_zero.1 hcount]
  rfl

/-- Settles O35: CAP is the capacity that SR gives, so ACTIVATE constructs the same ring again. -/
theorem reactivationResetsRing : Obligations.ReactivationResetsRing := by
  intro s hs hcapInv hlc ha
  have hcap := hcapInv ha
  have hcap' := activated_cap_toNat (s := s) (allocatable_bounds hcap).2
  obtain ⟨hpos, -⟩ := hs.ring ha
  refine ⟨_, exec_activate_ok hlc hcap, rfl, BitVec.eq_of_toNat_eq hcap', rfl, rfl, rfl, rfl, ?unread, ?slots⟩
  case unread => exact unread_of_reset rfl (hpos.trans_eq hcap'.symm) rfl rfl rfl
  case slots =>
    intro a hin
    obtain ⟨hl, hr⟩ := slot_construct s.cap.toNat s a
    rw [if_pos hin] at hl hr
    exact ⟨hl, hr⟩

/-- Settles O39: RESET leaves LC, ALLOC and BR, so its checks pass again, and it writes what is there already. -/
theorem resetIdempotent : Obligations.ResetIdempotent := by
  intro s hlc ha hbr
  obtain ⟨-, -, heffect, -⟩ := resetRule s
  refine ⟨_, heffect hlc ha hbr, rfl, rfl, rfl, rfl, ?again⟩
  obtain ⟨-, -, hagain, -⟩ := resetRule (respondOk .ctl [] { s with wcur := 0#32, rcur := 0#32, full := false, clip := false })
  exact hagain hlc ha hbr

/-! ### Passthrough (R90) -/

/-- A FRAME that executes finishes from its state or from the state after PUSH (R89, R91). -/
theorem exec_frame_next {s t : State} {l r : Word} (hlc : s.lc = .active) (hbr : s.br ≠ 0#24) (h : exec (.frame l r) s = .next t) :
    ∃ u, t = finishFrame l r u ∧ ((recording s = false ∧ u = s) ∨ (recording s = true ∧ push l r s = .ok u)) := by
  cases hrec : recording s with
  | false =>
    cases (exec_frame_pass l r hlc hbr hrec).symm.trans h
    exact ⟨s, rfl, .inl ⟨rfl, rfl⟩⟩
  | true =>
    have hbody : exec (.frame l r) s = _ := checked_none (frameChecks_pass hlc hbr)
    cases hp : push l r s with
    | error e =>
      simp only [hrec, hp, if_true] at hbody
      cases hbody.symm.trans h
    | ok u =>
      cases (exec_frame_push hlc hbr hrec hp).symm.trans h
      exact ⟨u, rfl, .inr ⟨rfl, rfl⟩⟩

/-- One frame less owed, as a number (R26). -/
theorem br_pred_toNat {br : BitVec 24} (h : br ≠ 0#24) : (br - 1#24).toNat + 1 = br.toNat := by
  have hpos : br.toNat ≠ 0 := fun h0 => h (BitVec.eq_of_toNat_eq h0)
  have hlt := br.isLt
  rw [BitVec.toNat_sub]
  simp only [BitVec.toNat_ofNat]
  omega

/-- Settles O45: the end of FRAME answers its two words, and PUSH writes neither BR nor the responses. -/
theorem passthroughUnconditional : Obligations.PassthroughUnconditional := by
  intro l r s t hlc hbr h
  obtain ⟨u, rfl, ⟨-, rfl⟩ | ⟨-, hp⟩⟩ := exec_frame_next hlc hbr h
  · exact ⟨rfl, br_pred_toNat hbr⟩
  · obtain ⟨-, rfl⟩ := push_inv hp
    exact ⟨rfl, br_pred_toNat hbr⟩

end Sys2Proof.Machine

/-! SUPPORT. Proofs of the statements about the ring as a queue (spec/41_ring_buffer_store.md R71, R74, R76, R77, spec/70_reset_and_hazards.md
R126, R127). -/

namespace Sys2Proof.Machine

/-! ### One command on the queue (R76, R77, R127) -/

/-- A recording FRAME, while R33 holds, is PUSH and the end of FRAME, and leaves the queue that PUSH leaves (R89, R91). -/
theorem exec_frame_record {s : State} (l r : Word) (hs : s.RegInv) (hlc : s.lc = .active) (hbr : s.br ≠ 0#24)
    (hrec : recording s = true) :
    ∃ u, push l r s = .ok u ∧ exec (.frame l r) s = .next (finishFrame l r u) ∧ unread (finishFrame l r u) = unread u := by
  have hp := push_ok (l := l) (r := r) (hs.wcurSlot (hs.active hlc))
  exact ⟨_, hp, exec_frame_push hlc hbr hrec hp, rfl⟩

/-- DRAIN m answers the first m unread frames, all where there are fewer, and drops them from the queue (R73, R76). -/
theorem exec_drain_unread {s : State} (m : Imm24) (hs : s.RegInv) (hlc : s.lc = .configured ∨ s.lc = .active)
    (ha : s.alloc = true) :
    ∃ t, exec (.drain m) s = .next t
      ∧ t.ctlOut = s.ctlOut
          ++ [⟨okStatus, BitVec.ofNat 32 (min m.toNat (unread s).length) :: frameWords ((unread s).take m.toNat)⟩]
      ∧ unread t = (unread s).drop m.toNat := by
  have htake : (List.range (drainCount m s)).map (frameAt s) = (unread s).take m.toNat := by
    rw [unread_eq, ← List.map_take, List.take_range, drainCount]
  refine ⟨_, exec_drain_next hs hlc ha m, ?_, (drain_state hs ha m.toNat _).1⟩
  rw [htake, unread_length]
  rfl

/-- Settles O53: RESET leaves the cursors equal and FULL = 0, PUSH is `unread_push`, DRAIN is `exec_drain_unread`. -/
theorem ringIsBoundedQueue : Obligations.RingIsBoundedQueue := by
  intro s hs
  refine ⟨fun hlc ha hbr => ?reset, fun l r hlc hbr hrec => ?frame, fun m hlc ha => exec_drain_unread m hs hlc ha⟩
  case reset =>
    obtain ⟨-, -, heffect, -⟩ := resetRule s
    exact ⟨_, heffect hlc ha hbr, unread_of_reset ha (hs.ring ha).1 rfl rfl rfl⟩
  case frame =>
    have ha := hs.active hlc
    obtain ⟨u, hp, hexec, hunread⟩ := exec_frame_record l r hs hlc hbr (decide_eq_true hrec)
    obtain ⟨hroom, hfull⟩ := unread_push hs ha hp
    refine ⟨_, hexec, ?_⟩
    rw [hunread]
    split
    · next hlt =>
      obtain ⟨happend, hclip, -⟩ := hroom ((full_iff hs ha).1 hlt)
      exact ⟨happend, hclip⟩
    · next hge =>
      obtain ⟨happend, hclip, -⟩ := hfull (Bool.eq_true_of_not_eq_false fun hf => hge ((full_iff hs ha).2 hf))
      exact ⟨happend, hclip⟩

/-- Settles O59: CLIP = 0 after PUSH says that FULL was 0, so PUSH only appended. -/
theorem clearClipMeansNothingLost : Obligations.ClearClipMeansNothingLost := by
  intro l r s t hs hlc hbr hrec h hclip
  obtain ⟨-, -, hroom, hfull, -⟩ := frame_appended hs hlc hbr hrec h
  cases hf : s.full with
  | false => exact (hroom hf).1
  | true => cases (hfull hf).2.symm.trans hclip

/-- In a ring of one slot every cursor is 0. -/
theorem cursor_eq_zero {cap cur : Word} (hcap : cap = 1#32) (h : cur.toNat < cap.toNat) : cur = 0#32 := by
  subst hcap
  exact BitVec.eq_of_toNat_eq (Nat.lt_one_iff.1 h)

/-- Settles O58: both cursors are below 1 before and after; PUSH leaves them equal, so FULL is set, and the queue of at most one frame gives
way to the pair. -/
theorem capacityOneRing : Obligations.CapacityOneRing := by
  intro l r s hs ha hcap
  obtain ⟨hpos, -, hw, hr⟩ := hs.ring ha
  refine ⟨cursor_eq_zero hcap hw, cursor_eq_zero hcap hr, fun hlc hbr hrec => ?_⟩
  obtain ⟨u, hp, hexec, hunread⟩ := exec_frame_record l r hs hlc hbr (decide_eq_true hrec)
  have hu := regInv_push hs hp
  have hucap : u.cap = 1#32 := by obtain ⟨-, rfl⟩ := push_inv hp; exact hcap
  have hua : u.alloc = true := by obtain ⟨-, rfl⟩ := push_inv hp; exact ha
  obtain ⟨-, -, huw, hur⟩ := hu.ring hua
  obtain ⟨-, hroom, hfull⟩ := push_cursors hpos hp
  obtain ⟨happend, hreplace⟩ := unread_push hs ha hp
  refine ⟨_, hexec, cursor_eq_zero hucap huw, cursor_eq_zero hucap hur, ?full, (push_clip hp : u.clip = _), hunread.trans ?queue⟩
  case full =>
    cases hf : s.full with
    | false =>
      obtain ⟨-, -, hmeet⟩ := hroom hf
      exact hmeet.2 ((cursor_eq_zero hucap huw).trans (cursor_eq_zero hcap hr).symm)
    | true =>
      obtain ⟨-, -, hset⟩ := hfull hf
      exact hset
  case queue =>
    have hlen := count_le ha hpos
    rw [← unread_length, hcap] at hlen
    cases hf : s.full with
    | false =>
      have hlt := (full_iff hs ha).2 hf
      rw [hcap] at hlt
      rw [(happend hf).1, List.eq_nil_of_length_eq_zero (Nat.lt_one_iff.1 hlt)]
      rfl
    | true =>
      have htail : (unread s).tail = [] := List.eq_nil_of_length_eq_zero (by
        rw [List.length_tail]; exact Nat.sub_eq_zero_of_le hlen)
      rw [(hreplace hf).1, htail]
      rfl

/-! ### Any number of recorded frames (R71, R74) -/

/-- `t` is `s` with the frames `fs` recorded after it: the queue is the last CAP frames, WCUR is moved on by as many, and RCUR and CLIP are as
they were while all fit (R71). -/
structure RecordedSince (fs : List (Word × Word)) (s t : State) : Prop where
  inv : t.RegInv
  alloc : t.alloc = true
  cap : t.cap = s.cap
  queue : unread t = (unread s ++ fs).drop ((unread s).length + fs.length - s.cap.toNat)
  wcur : t.wcur.toNat = (s.wcur.toNat + fs.length) % s.cap.toNat
  room : (unread s).length + fs.length ≤ s.cap.toNat → t.rcur = s.rcur ∧ t.clip = s.clip
  lost : s.cap.toNat < (unread s).length + fs.length → t.clip = true

theorem RecordedSince.refl {s : State} (hs : s.RegInv) (ha : s.alloc = true) : RecordedSince [] s s := by
  obtain ⟨hpos, -, hw, -⟩ := hs.ring ha
  have hlen : (unread s).length ≤ s.cap.toNat := by rw [unread_length]; exact count_le ha hpos
  refine ⟨hs, ha, rfl, ?_, ?_, fun _ => ⟨rfl, rfl⟩, fun h => ?_⟩
  · rw [List.append_nil, List.length_nil, Nat.add_zero, Nat.sub_eq_zero_of_le hlen, List.drop_zero]
  · rw [List.length_nil, Nat.add_zero, Nat.mod_eq_of_lt hw]
  · exact absurd h (Nat.not_lt.2 hlen)

/-- A command that leaves the ring as it was may stand before the recorded frames. -/
theorem RecordedSince.of_sameRing {fs : List (Word × Word)} {s v t : State} (hcap : v.cap = s.cap) (hv : SameRing s v)
    (h : RecordedSince fs v t) : RecordedSince fs s t := by
  obtain ⟨hunread, hw, hr, hclip⟩ := hv
  obtain ⟨hinv, ha, hc, hq, hwc, hroom, hlost⟩ := h
  rw [hcap] at hc hq hwc hroom hlost
  rw [hunread] at hq hroom hlost
  rw [hw] at hwc
  rw [hr, hclip] at hroom
  exact ⟨hinv, ha, hc, hq, hwc, hroom, hlost⟩

/-- A frame appended before the recorded frames is the first of them. -/
theorem RecordedSince.of_appended {f : Word × Word} {fs : List (Word × Word)} {s v t : State} (hs : s.RegInv) (ha : s.alloc = true)
    (hcap : v.cap = s.cap) (hv : Appended f s v) (h : RecordedSince fs v t) : RecordedSince (f :: fs) s t := by
  obtain ⟨hroomF, hfullF, hw⟩ := hv
  obtain ⟨hinv, hat, hc, hq, hwc, hroom, hlost⟩ := h
  rw [hcap] at hc hq hwc hroom hlost
  have hwcur : t.wcur.toNat = (s.wcur.toNat + (f :: fs).length) % s.cap.toNat := by
    rw [hwc, hw, Nat.mod_add_mod, List.length_cons, Nat.add_assoc, Nat.add_comm 1]
  cases hf : s.full with
  | false =>
    obtain ⟨hunread, hr, hclip⟩ := hroomF hf
    have hsum : (unread v).length + fs.length = (unread s).length + (f :: fs).length := by
      simp only [hunread, List.length_append, List.length_cons, List.length_nil]; omega
    rw [hsum] at hq hroom hlost
    rw [hunread, List.append_assoc, List.singleton_append] at hq
    rw [hr, hclip] at hroom
    exact ⟨hinv, hat, hc, hq, hwcur, hroom, hlost⟩
  | true =>
    obtain ⟨hunread, hclip⟩ := hfullF hf
    have hlen : (unread s).length = s.cap.toNat := by rw [unread_length, count_full ha hf]
    obtain ⟨hpos, -⟩ := hs.ring ha
    have hlenv : (unread v).length = s.cap.toNat := by
      rw [hunread, List.length_append, List.length_tail, hlen, List.length_singleton, Nat.sub_add_cancel hpos]
    refine ⟨hinv, hat, hc, ?_, hwcur, fun hle => ?_, fun _ => ?_⟩
    · have hne : unread s ≠ [] := List.ne_nil_of_length_pos (hlen ▸ hpos)
      rw [hq, hlenv, hlen, hunread, Nat.add_sub_cancel_left, Nat.add_sub_cancel_left, List.append_assoc, List.singleton_append,
        List.length_cons, ← List.tail_append_of_ne_nil hne, List.drop_tail]
    · rw [hlen, List.length_cons] at hle
      omega
    · rcases Nat.eq_zero_or_pos fs.length with h0 | hpos'
      · exact (hroom (by rw [hlenv, h0, Nat.add_zero])).2.trans hclip
      · exact hlost (by rw [hlenv]; omega)

/-- Commands that only push, while R33 holds, record their frames one after another: by induction on the commands. -/
theorem execAll_onlyPushes (cs : List Instr) {s : State} (hs : s.RegInv) (ha : s.alloc = true) (hcs : ∀ i ∈ cs, OnlyPushes i) :
    ∃ t, execAll cs s = .next t ∧ RecordedSince (recordedBy cs s) s t := by
  induction cs generalizing s with
  | nil => exact ⟨s, rfl, .refl hs ha⟩
  | cons i cs ih =>
    obtain ⟨hi, hcs⟩ := List.forall_mem_cons.1 hcs
    obtain ⟨v, hv⟩ := exec_answers hs i
    obtain ⟨hva, hcap, hring⟩ := exec_onlyPushes hs ha hi hv
    obtain ⟨t, ht, hrec⟩ := ih (regInv_kept.exec hs hv) hva hcs
    refine ⟨t, (execAll_cons hv cs).trans ht, ?_⟩
    rw [recordedBy_cons hv]
    rcases hring with ⟨hnone, hsame⟩ | ⟨f, hone, happended⟩
    · rw [hnone]; exact hrec.of_sameRing hcap hsame
    · rw [hone]; exact hrec.of_appended hs ha hcap happended

/-- Every FRAME owed in an open recording block is recorded: by induction on the frames (R89, R91). -/
theorem recordedBy_frameCommands (fs : List (Word × Word)) {s : State} (hs : s.RegInv) (hlc : s.lc = .active)
    (hrec : recording s = true) (hbr : fs.length ≤ s.br.toNat) : recordedBy (frameCommands fs) s = fs := by
  induction fs generalizing s with
  | nil => rfl
  | cons f fs ih =>
    have hopen : s.br ≠ 0#24 := by rintro h0; rw [h0] at hbr; cases hbr
    obtain ⟨u, hp, hexec, -⟩ := exec_frame_record f.1 f.2 hs hlc hopen hrec
    have hnow : recordedNow s (.frame f.1 f.2) = [f] := if_pos ⟨hlc, hopen, hrec⟩
    have hinv := regInv_kept.exec hs hexec
    have hbr' := br_pred_toNat hopen
    obtain ⟨-, rfl⟩ := push_inv hp
    have hrest := ih hinv hlc hrec (show fs.length ≤ (s.br - 1#24).toNat by rw [List.length_cons] at hbr; omega)
    rw [frameCommands, List.map_cons, recordedBy_cons hexec, hnow]
    exact congrArg (f :: ·) hrest

/-- Settles O54: the queue starts empty with both cursors 0, so `RecordedSince` gives every clause; FULL is whether the queue has CAP frames,
and in a full ring the cursors are equal. -/
theorem pushesAfterReset : Obligations.PushesAfterReset := by
  refine ⟨fun s fs hs hlc hrec hbr => recordedBy_frameCommands fs hs hlc (decide_eq_true hrec) hbr, ?_⟩
  intro s cs hs ha hw hr hf hclip hcs fs
  obtain ⟨hpos, -⟩ := hs.ring ha
  have hempty := unread_of_reset ha hpos hw hr hf
  obtain ⟨t, ht, hinv, hta, hcap, hq, hwcur, hroom, hlost⟩ := execAll_onlyPushes cs hs ha hcs
  rw [hempty] at hq hroom hlost
  rw [hw] at hwcur
  rw [hr, hclip] at hroom
  simp only [List.nil_append, List.length_nil, Nat.zero_add, BitVec.toNat_ofNat, Nat.zero_mod] at hq hwcur hroom hlost
  have hfull : t.full = true ↔ s.cap.toNat ≤ fs.length := by
    have hiff := full_iff hinv hta
    rw [hq, hcap, List.length_drop] at hiff
    rw [← not_iff_not, Bool.not_eq_true, ← hiff]
    change fs.length - (fs.length - s.cap.toNat) < _ ↔ _
    omega
  refine ⟨t, ht, hcap, hwcur, fun hle => ?_, fun hlt => ?_, hq⟩
  · obtain ⟨hrcur, hclipt⟩ := hroom hle
    exact ⟨hrcur, hfull.trans ⟨fun hge => Nat.le_antisymm hle hge, Nat.le_of_eq ∘ Eq.symm⟩, hclipt⟩
  · have hft := hfull.2 hlt.le
    exact ⟨(hinv.full hft).2 ▸ hwcur, hft, hlost hlt⟩

/-- DRAIN of an empty queue answers 0 and changes nothing else (R73). -/
theorem exec_drain_empty {s : State} (m : Imm24) (hs : s.RegInv) (hlc : s.lc = .configured ∨ s.lc = .active)
    (ha : s.alloc = true) (hempty : unread s = []) : exec (.drain m) s = .next (respondOk .ctl [0#32] s) := by
  obtain ⟨hpos, -, -, hr⟩ := hs.ring ha
  have hzero : drainCount m s = 0 := by
    rw [drainCount, ← unread_length, hempty]
    exact Nat.min_zero _
  rw [exec_drain_next hs hlc ha, hzero, drained_eq hpos]
  simp [frameWords, Nat.mod_eq_of_lt hr]

/-- An allocated ring is in CONFIGURED or ACTIVE (R33). -/
theorem State.RegInv.inService {s : State} (hs : s.RegInv) (ha : s.alloc = true) : s.lc = .configured ∨ s.lc = .active := by
  rw [← notInService_eq_false, ← Bool.not_eq_true, notInService_eq_true]
  exact fun hlc => nomatch (hs.released hlc).symm.trans ha

/-- Settles O55: the queue after the commands is the recorded frames, DRAIN answers and drops them all, and the next finds it empty. -/
theorem drainReturnsWhatWasPushed : Obligations.DrainReturnsWhatWasPushed := by
  intro s cs hs ha hempty hcs fs hle hlt
  obtain ⟨t, ht, hinv, hta, hcap, hq, -⟩ := execAll_onlyPushes cs hs ha hcs
  have hqueue : unread t = fs := by
    rw [hq, hempty, List.length_nil, Nat.zero_add, Nat.sub_eq_zero_of_le hle, List.drop_zero, List.nil_append]
  have hoperand : (BitVec.ofNat 24 fs.length).toNat = fs.length := (BitVec.toNat_ofNat ..).trans (Nat.mod_eq_of_lt hlt)
  obtain ⟨u, hu, hout, hrest⟩ := exec_drain_unread (BitVec.ofNat 24 fs.length) hinv (hinv.inService hta) hta
  have huinv := regInv_kept.exec hinv hu
  rw [hqueue, hoperand] at hout hrest
  rw [Nat.min_self, List.take_length] at hout
  rw [List.drop_length] at hrest
  have hua : u.alloc = true := by
    by_contra hne
    obtain ⟨-, -, halloc, -⟩ := registerWriters _ _ _ hu
    rcases halloc fun heq => hne (heq.trans hta) with h | h
    · cases h
    · cases h
  exact ⟨t, u, ht, hu, hout, fun m => exec_drain_empty m huinv (huinv.inService hua) hua hrest⟩

end Sys2Proof.Machine

/-! SUPPORT. Proofs of the statements about whole blocks (spec/42_stream_processor.md R94, R95, spec/60_exceptions.md R109). -/

namespace Sys2Proof.Machine

/-! ### A block that does not record (R95) -/

/-- The FRAMEs owed in a block that does not record pass through: by induction on the frames (R89, R91). -/
theorem execAll_frames_pass (fs : List (Word × Word)) {s : State} (hlc : s.lc = .active) (hrec : recording s = false)
    (hbr : s.br.toNat = fs.length) :
    execAll (frameCommands fs) s
      = .next { s with br := 0#24, rtOut := s.rtOut ++ fs.map fun f => ⟨okStatus, [f.1, f.2, clipWord s]⟩ } := by
  induction fs generalizing s with
  | nil =>
    have hzero : s.br = 0#24 := BitVec.eq_of_toNat_eq hbr
    simp only [frameCommands, List.map_nil, execAll, List.append_nil, ← hzero]
  | cons f fs ih =>
    have hopen : s.br ≠ 0#24 := by rintro h0; rw [h0] at hbr; cases hbr
    have hbr' : (s.br - 1#24).toNat = fs.length := Nat.succ.inj ((br_pred_toNat hopen).trans hbr)
    have hfirst := exec_frame_pass f.1 f.2 hlc hopen hrec
    rw [frameCommands, List.map_cons, execAll_cons hfirst, ← frameCommands, ih (s := finishFrame f.1 f.2 s) hlc hrec hbr']
    simp only [finishFrame, respondOk_rtOut_rt, List.append_assoc]
    rfl

/-- Settles O56: BLOCK latches the controls, so its FRAMEs do not record and pass through. -/
theorem unrecordedBlockOnlyPasses : Obligations.UnrecordedBlockOnlyPasses := by
  intro s n fmt rec sav fs hlc hbr hrec hlen
  obtain ⟨-, -, -, hblock, -⟩ := blockRule n fmt rec sav s
  rw [Pseudo.expand, execAll_cons (hblock hlc hbr)]
  refine (execAll_frames_pass fs (by exact hlc) (by exact decide_eq_false hrec) (by exact hlen.symm)).trans ?_
  simp only [respondOk_rtOut_rt, List.append_assoc]
  rfl

/-! ### A block among CTL commands (R94, R109) -/

/-- A FRAME in an open block, while R33 holds, executes and leaves LC, CAP, the fault record and the CTL responses (R89). -/
theorem exec_frame_answers {s : State} (l r : Word) (hs : s.RegInv) (hbr : s.br ≠ 0#24) :
    ∃ v, exec (.frame l r) s = .next v ∧ v.lc = s.lc ∧ v.cap = s.cap ∧ v.faulted = s.faulted ∧ v.fcode = s.fcode
      ∧ v.ctlOut = s.ctlOut := by
  obtain ⟨v, hv⟩ := exec_answers hs (.frame l r)
  obtain ⟨u, rfl, ⟨-, rfl⟩ | ⟨-, hp⟩⟩ := exec_frame_next (hs.block hbr) hbr hv
  · exact ⟨_, hv, rfl, rfl, rfl, rfl, rfl⟩
  · obtain ⟨-, rfl⟩ := push_inv hp
    exact ⟨_, hv, rfl, rfl, rfl, rfl, rfl⟩

/-- The CTL commands that succeed in a block (R94). -/
def Inspects (i : Instr) : Prop := (∃ m, i = .drain m) ∨ (∃ k, i = .peek k) ∨ ∃ idx, i = .rdreg idx

/-- Those whose indices are in range for a ring of `cap` slots. -/
def InspectsWithin (cap : Nat) (i : Instr) : Prop :=
  (∃ m, i = .drain m) ∨ (∃ k, i = .peek k ∧ k.toNat < cap) ∨ ∃ idx, i = .rdreg idx ∧ idx.toNat ≤ 10

theorem InspectsWithin.inspects {cap : Nat} {i : Instr} (h : InspectsWithin cap i) : Inspects i :=
  h.imp_right (Or.imp (fun ⟨k, hk, _⟩ => ⟨k, hk⟩) fun ⟨idx, hidx, _⟩ => ⟨idx, hidx⟩)

/-- There is a view for each index up to 10 (R97). -/
theorem exists_view_of_le (s : State) {n : Nat} (h : n ≤ 10) : ∃ w, view s n = some w := by
  match n with
  | 0 | 1 | 2 | 3 | 4 | 5 | 6 | 7 | 8 | 9 | 10 => exact ⟨_, rfl⟩
  | n + 11 => omega

/-- An inspection writes neither LC nor CAP. -/
theorem exec_inspects {i : Instr} {s v : State} (hi : Inspects i) (h : exec i s = .next v) : v.lc = s.lc ∧ v.cap = s.cap := by
  obtain ⟨hlc, -, -, hcap, -⟩ := registerWriters i s v h
  rcases hi with ⟨m, rfl⟩ | ⟨k, rfl⟩ | ⟨idx, rfl⟩
  · exact ⟨by simpa using hlc, by simpa using hcap⟩
  · exact ⟨by simpa using hlc, by simpa using hcap⟩
  · exact ⟨by simpa using hlc, by simpa using hcap⟩

/-- In ACTIVE an inspection with its index in range records no fault, while R33 holds. -/
theorem exec_inspectsWithin {i : Instr} {s v : State} (hs : s.RegInv) (hlc : s.lc = .active) (hi : InspectsWithin s.cap.toNat i)
    (h : exec i s = .next v) : v.faulted = s.faulted ∧ v.fcode = s.fcode := by
  have ha := hs.active hlc
  rcases hi with ⟨m, rfl⟩ | ⟨k, rfl, hk⟩ | ⟨idx, rfl, hidx⟩
  · cases (exec_drain_next hs (.inr hlc) ha m).symm.trans h
    exact ⟨rfl, rfl⟩
  · cases (exec_peek_ok hs (.inr hlc) ha hk).symm.trans h
    exact ⟨rfl, rfl⟩
  · obtain ⟨w, hw⟩ := exists_view_of_le s hidx
    cases (exec_rdreg_ok hw).symm.trans h
    exact ⟨rfl, rfl⟩

/-- A CTL command leaves BR and the responses on RT. -/
theorem exec_ctl_frame {i : Instr} {s v : State} (hi : i.port = .ctl) (h : exec i s = .next v) :
    v.br = s.br ∧ v.rtOut = s.rtOut := by
  refine ⟨?_, exec_out_other h (port := .rt) (by rw [hi]; nofun)⟩
  by_contra hne
  obtain ⟨-, -, -, -, -, -, -, -, hbr, -⟩ := registerWriters i s v h
  rcases hbr hne with ⟨n, f, r, w, rfl⟩ | ⟨l, r, rfl⟩
  · cases hi
  · cases hi

/-- The response of a FRAME that passes its input words through (R57, R90). -/
def PassedThrough (f : Word × Word) (r : Response) : Prop :=
  ∃ clip : Bool, r = ⟨okStatus, [f.1, f.2, if clip then 1#32 else 0#32]⟩

/-- What WholeBlockNeverErrs says of the commands `cs` after BLOCK, of which the RT ones are the FRAMEs of `fs`: from `s` they run to `t`
with the responses `rs` on RT. -/
structure BlockAnswered (fs : List (Word × Word)) (cs : List Instr) (s t : State) (rs : List Response) : Prop where
  run : execAll cs s = .next t
  rtOut : t.rtOut = s.rtOut ++ rs
  passed : List.Forall₂ PassedThrough fs rs
  br : t.br = 0#24
  active : s.lc = .active → (∀ i ∈ cs, i.port = .ctl → Inspects i) → t.lc = .active
  record : s.lc = .active → (∀ i ∈ cs, i.port = .ctl → InspectsWithin s.cap.toNat i) → t.faulted = s.faulted ∧ t.fcode = s.fcode
  ctlOut : (∀ i ∈ cs, i.port = .rt) → t.ctlOut = s.ctlOut

/-- A FRAME before the rest of the block. -/
theorem BlockAnswered.cons_frame {f : Word × Word} {fs : List (Word × Word)} {cs : List Instr} {s v t : State} {rs : List Response}
    (hs : s.RegInv) (hbr : s.br ≠ 0#24) (hv : exec (.frame f.1 f.2) s = .next v) (h : BlockAnswered fs cs v t rs) :
    BlockAnswered (f :: fs) (.frame f.1 f.2 :: cs) s t (⟨okStatus, [f.1, f.2, if v.clip then 1#32 else 0#32]⟩ :: rs) := by
  obtain ⟨hrt, -⟩ := passthroughUnconditional f.1 f.2 s v (hs.block hbr) hbr hv
  obtain ⟨v', hv', hlc, hcap, hfaulted, hfcode, hctl⟩ := exec_frame_answers f.1 f.2 hs hbr
  cases hv.symm.trans hv'
  have hactive := hlc.trans (hs.block hbr)
  constructor
  case run => exact (execAll_cons hv cs).trans h.run
  case rtOut => rw [h.rtOut, hrt, List.append_assoc, List.singleton_append]
  case passed => exact .cons ⟨v.clip, rfl⟩ h.passed
  case br => exact h.br
  case active => exact fun _ hi => h.active hactive (List.forall_mem_cons.1 hi).2
  case record =>
    intro _ hi
    obtain ⟨h1, h2⟩ := h.record hactive (hcap ▸ (List.forall_mem_cons.1 hi).2)
    exact ⟨h1.trans hfaulted, h2.trans hfcode⟩
  case ctlOut => exact fun hi => (h.ctlOut (List.forall_mem_cons.1 hi).2).trans hctl

/-- A CTL command before the rest of the block. -/
theorem BlockAnswered.cons_ctl {i : Instr} {fs : List (Word × Word)} {cs : List Instr} {s v t : State} {rs : List Response}
    (hs : s.RegInv) (hi : i.port = .ctl) (hv : exec i s = .next v) (h : BlockAnswered fs cs v t rs) :
    BlockAnswered fs (i :: cs) s t rs := by
  obtain ⟨-, hrt⟩ := exec_ctl_frame hi hv
  constructor
  case run => exact (execAll_cons hv cs).trans h.run
  case rtOut => rw [h.rtOut, hrt]
  case passed => exact h.passed
  case br => exact h.br
  case active =>
    intro hlc hall
    obtain ⟨hfirst, hrest⟩ := List.forall_mem_cons.1 hall
    exact h.active ((exec_inspects (hfirst hi) hv).1.trans hlc) hrest
  case record =>
    intro hlc hall
    obtain ⟨hfirst, hrest⟩ := List.forall_mem_cons.1 hall
    obtain ⟨hlcv, hcapv⟩ := exec_inspects (hfirst hi).inspects hv
    obtain ⟨h1, h2⟩ := h.record (hlcv.trans hlc) (hcapv ▸ hrest)
    obtain ⟨g1, g2⟩ := exec_inspectsWithin hs hlc (hfirst hi) hv
    exact ⟨h1.trans g1, h2.trans g2⟩
  case ctlOut =>
    intro hall
    cases hi.symm.trans (List.forall_mem_cons.1 hall).1

/-- The rest of a block, whatever CTL commands stand among its FRAMEs: by induction on the commands. -/
theorem exists_blockAnswered (cs : List Instr) {s : State} {fs : List (Word × Word)} (hs : s.RegInv)
    (hbr : s.br.toNat = fs.length) (hcs : cs.filter (fun i => i.port = .rt) = frameCommands fs) :
    ∃ t rs, BlockAnswered fs cs s t rs := by
  induction cs generalizing s fs with
  | nil =>
    cases fs with
    | nil =>
      exact ⟨s, [], rfl, (List.append_nil _).symm, .nil, BitVec.eq_of_toNat_eq hbr, fun hlc _ => hlc, fun _ _ => ⟨rfl, rfl⟩,
        fun _ => rfl⟩
    | cons f fs => cases hcs
  | cons i cs ih =>
    cases hport : i.port with
    | rt =>
      rw [List.filter_cons_of_pos (by simpa using hport)] at hcs
      cases fs with
      | nil => cases hcs
      | cons f fs =>
        obtain ⟨rfl, hrest⟩ := List.cons.inj hcs
        have hopen : s.br ≠ 0#24 := by rintro h0; rw [h0] at hbr; cases hbr
        obtain ⟨v, hv⟩ := exec_answers hs (.frame f.1 f.2)
        obtain ⟨-, hpred⟩ := passthroughUnconditional f.1 f.2 s v (hs.block hopen) hopen hv
        obtain ⟨t, rs, h⟩ := ih (regInv_kept.exec hs hv) (Nat.succ.inj (hpred.trans hbr)) hrest
        exact ⟨t, _, h.cons_frame hs hopen hv⟩
    | ctl =>
      rw [List.filter_cons_of_neg (by simp [hport])] at hcs
      obtain ⟨v, hv⟩ := exec_answers hs i
      obtain ⟨t, rs, h⟩ := ih (regInv_kept.exec hs hv) ((exec_ctl_frame hport hv).1 ▸ hbr) hcs
      exact ⟨t, rs, h.cons_ctl hs hport hv⟩

/-- Settles O57: BLOCK opens the block, and the rest is `exists_blockAnswered`'s. -/
theorem wholeBlockNeverErrs : Obligations.WholeBlockNeverErrs := by
  intro s n fmt rec sav fs cs hs hlc hbr hlen hcs
  obtain ⟨-, -, -, hblock, -⟩ := blockRule n fmt rec sav s
  have hexec := hblock hlc hbr
  obtain ⟨t, rs, h⟩ := exists_blockAnswered cs (regInv_kept.exec hs hexec) (by exact hlen.symm) hcs
  refine ⟨t, rs, (execAll_cons hexec cs).trans h.run, ?_, h.passed, h.br, h.active hlc, h.record hlc, h.ctlOut⟩
  rw [h.rtOut, respondOk_rtOut_rt, List.append_assoc, List.singleton_append]

end Sys2Proof.Machine
